-- ==== Sys2Proof/Word.lean ====
section
/-! DEFINITION. The two lane formats, the word types the spec's rules are written over, and nothing a rule computes. -/

namespace Sys2Proof

/-- The lane element format `T` of an operation: binary32 or binary64 (spec/00_scope.md R9). -/
inductive Fmt where
  | binary32
  | binary64
deriving DecidableEq, Repr

/-- `w(T)`, the lane width in bits (R9). -/
@[reducible] def Fmt.w : Fmt → Nat
  | .binary32 => 32
  | .binary64 => 64

/-- `NA(T)`, the number of polynomial coefficients (R9, R23). -/
@[reducible] def Fmt.na : Fmt → Nat
  | .binary32 => 2
  | .binary64 => 5

/-- `bits_T`: an unsigned word of `w(T)` bits naming a floating-point pattern (R13, R70). -/
abbrev Bits (f : Fmt) := BitVec f.w

/-- `int_T`: the same `w(T)` bits read as a two's-complement integer (R13, R86).
`bitcast` (R72) between the two changes no bit, so both are one Lean type. -/
abbrev IntT (f : Fmt) := BitVec f.w

/-- An operand or result vector, `VLEN` = 512 bits (R9, R32). -/
abbrev Vec := BitVec 512

/-- The command word `cmd_op[3:0]` (R56). -/
abbrev CmdWord := BitVec 4

end Sys2Proof
end

