-- ==== Sys2Proof/Syntax.lean ====
section
/-! DEFINITION. Commands as the port carries them, and the instructions: one constructor per row of the opcode table. -/

namespace Sys2Proof

/-- A command: the 4-bit command word and the 512-bit source operand, presented together (spec/30_encoding.md R55).
It is also the type of an entry of the in-flight queue (spec/10_state.md R34). -/
structure Command where
  op : CmdWord
  vs : Vec
deriving DecidableEq, Repr

/-- The instructions: the five operations (R58) and the four rows of illegal words (R59).
Every one carries the operand it was presented with, so that the whole command can be encoded again;
the row of eight illegal words also carries which of the eight it is. -/
inductive Instr where
  /-- `VEXP.S4` (R191): binary32, 4 lanes. -/
  | vexpS4 (vs : Vec)
  /-- `VEXP.S8` (R192): binary32, 8 lanes. -/
  | vexpS8 (vs : Vec)
  /-- `VEXP.S16` (R193): binary32, 16 lanes. -/
  | vexpS16 (vs : Vec)
  /-- `VEXP.D4` (R194): binary64, 4 lanes. -/
  | vexpD4 (vs : Vec)
  /-- `VEXP.D8` (R195): binary64, 8 lanes. -/
  | vexpD8 (vs : Vec)
  /-- The illegal word `0011`: `vl` = 11 is reserved (R59). -/
  | illegalVl3S (vs : Vec)
  /-- The illegal word `0110`: binary64 with 16 lanes does not exist (R59). -/
  | illegalD16 (vs : Vec)
  /-- The illegal word `0111`: `vl` = 11 is reserved (R59). -/
  | illegalVl3D (vs : Vec)
  /-- The illegal words `1000` to `1111`: `alg` = 1 is reserved (R59). -/
  | illegalAlg1 (op : CmdWord) (vs : Vec)
deriving DecidableEq, Repr

/-- The mnemonic of an instruction, as spec/opcode_table.json spells it (R63). -/
def Instr.mnemonic : Instr → String
  | .vexpS4 _ => "VEXP.S4"
  | .vexpS8 _ => "VEXP.S8"
  | .vexpS16 _ => "VEXP.S16"
  | .vexpD4 _ => "VEXP.D4"
  | .vexpD8 _ => "VEXP.D8"
  | .illegalVl3S _ => "ILLEGAL.vl3.S"
  | .illegalD16 _ => "ILLEGAL.D16"
  | .illegalVl3D _ => "ILLEGAL.vl3.D"
  | .illegalAlg1 _ _ => "ILLEGAL.alg1"

end Sys2Proof
end

