-- ==== Sys2Proof/WellFormed.lean ====
section
/-! DEFINITION. Which instruction terms stand for a command the port can carry. -/

namespace Sys2Proof

/-- The one thing the types leave open: a term of the `ILLEGAL.alg1` row must hold a word whose `alg` bit,
bit 3, is set (spec/30_encoding.md R56, R59). Every other constructor fixes its word, and no operand value
makes a command ill-formed (R61). -/
def Instr.wf : Instr → Bool
  | .vexpS4 _ => true
  | .vexpS8 _ => true
  | .vexpS16 _ => true
  | .vexpD4 _ => true
  | .vexpD8 _ => true
  | .illegalVl3S _ => true
  | .illegalD16 _ => true
  | .illegalVl3D _ => true
  | .illegalAlg1 op _ => op.getLsbD 3

end Sys2Proof
end

