-- ==== Sys2Proof/Decode.lean ====
section
/-! DEFINITION. The command encoding of spec/30_encoding.md: fields, legality, decoder, encoder, and the opcode table as rows. -/

namespace Sys2Proof

/-- Field `alg`, bit 3 of the command word (R56). -/
def algField (op : CmdWord) : BitVec 1 := op.extractLsb' 3 1

/-- Field `fmt`, bit 2 of the command word (R56). -/
def fmtField (op : CmdWord) : BitVec 1 := op.extractLsb' 2 1

/-- Field `vl`, bits 1:0 of the command word (R56). -/
def vlField (op : CmdWord) : BitVec 2 := op.extractLsb' 0 2

/-- The predicate `legal(op)` of R59: `op[3] = 0 and op[1:0] ≠ 3 and not (op[2] = 1 and op[1:0] = 2)`. -/
def legal (op : CmdWord) : Bool :=
  algField op == 0 && vlField op != 3 && !(fmtField op == 1 && vlField op == 2)

/-- The format `T` that field `fmt` selects: 0 is binary32, 1 is binary64 (R56). -/
def opFormat (op : CmdWord) : Fmt := if fmtField op = 0 then .binary32 else .binary64

/-- The lane count `W = 4 << vl` (R56); it means a lane count for `vl` in 0..2 only. -/
def opLanes (op : CmdWord) : Nat := 4 <<< (vlField op).toNat

/-- The decoder: total on the sixteen words, reading the fields of R56 and never looking at the operand (R61).
The eleven words that select no operation decode to their illegal row by name (R59). -/
def decode (c : Command) : Instr :=
  if algField c.op = 1 then .illegalAlg1 c.op c.vs
  else if fmtField c.op = 0 then
    if vlField c.op = 0 then .vexpS4 c.vs
    else if vlField c.op = 1 then .vexpS8 c.vs
    else if vlField c.op = 2 then .vexpS16 c.vs
    else .illegalVl3S c.vs
  else
    if vlField c.op = 0 then .vexpD4 c.vs
    else if vlField c.op = 1 then .vexpD8 c.vs
    else if vlField c.op = 2 then .illegalD16 c.vs
    else .illegalVl3D c.vs

/-- The command of an instruction, written from the opcode map of R58 and the list of R59 (`alg fmt vl1 vl0`). -/
def encode : Instr → Command
  | .vexpS4 vs => ⟨0b0000, vs⟩
  | .vexpS8 vs => ⟨0b0001, vs⟩
  | .vexpS16 vs => ⟨0b0010, vs⟩
  | .vexpD4 vs => ⟨0b0100, vs⟩
  | .vexpD8 vs => ⟨0b0101, vs⟩
  | .illegalVl3S vs => ⟨0b0011, vs⟩
  | .illegalD16 vs => ⟨0b0110, vs⟩
  | .illegalVl3D vs => ⟨0b0111, vs⟩
  | .illegalAlg1 op vs => ⟨op, vs⟩

/-- The instruction whose bits, numbered as the opcode table numbers them, are `w`, with an operand of zeros.
A command word has four bits (R55): a number that needs more is no command word and is rejected. -/
def decodeTableWord (_nbits w : Nat) : Option Instr :=
  if w < 16 then some (decode ⟨BitVec.ofNat 4 w, 0⟩) else none

/-- One row of the opcode table: a word belongs to it when it agrees with `bits` on the bits of `mask`. -/
structure OpcodeRow where
  mnemonic : String
  mask : CmdWord
  bits : CmdWord
deriving DecidableEq, Repr

/-- The opcode table (spec/opcode_table.json; R58, R59). -/
def opcodeTable : List OpcodeRow :=
  [⟨"VEXP.S4", 0xF, 0b0000⟩, ⟨"VEXP.S8", 0xF, 0b0001⟩, ⟨"VEXP.S16", 0xF, 0b0010⟩,
   ⟨"VEXP.D4", 0xF, 0b0100⟩, ⟨"VEXP.D8", 0xF, 0b0101⟩,
   ⟨"ILLEGAL.vl3.S", 0xF, 0b0011⟩, ⟨"ILLEGAL.D16", 0xF, 0b0110⟩, ⟨"ILLEGAL.vl3.D", 0xF, 0b0111⟩,
   ⟨"ILLEGAL.alg1", 0x8, 0b1000⟩]

/-- A word belongs to a row of the table. -/
def OpcodeRow.holds (r : OpcodeRow) (op : CmdWord) : Bool := op &&& r.mask == r.bits

end Sys2Proof
end

