-- ==== Sys2Proof/Config.lean ====
section
/-! DEFINITION. What an instance of the block fixes: the two constant ROMs and the queue's capacity; and the port values the spec leaves open. -/

namespace Sys2Proof

/-- `ROM(T)`: every field one pattern of `w(T)` bits, or an array of them (spec/10_state.md R22, R23).
The contents are an OPEN parameter (R9): no definition of the model fixes them but the reference image. -/
structure Rom (f : Fmt) where
  /-- `S_lead[k]`, the lead part of `2^(k/32)`. -/
  sLead : Vector (Bits f) 32
  /-- `S_trail[k]`, the trail part of the same entry. -/
  sTrail : Vector (Bits f) 32
  /-- `THRESHOLD_1`: above this magnitude the result saturates. -/
  threshold1 : Bits f
  /-- `THRESHOLD_2`: below this magnitude the result is `1 + x`. -/
  threshold2 : Bits f
  /-- `INV_L`, `32 / ln 2`. -/
  invL : Bits f
  /-- `L1`, the lead part of `ln 2 / 32`. -/
  l1 : Bits f
  /-- `L2`, the trail part of `ln 2 / 32`. -/
  l2 : Bits f
  /-- `A1` to `A_NA(T)`, the polynomial coefficients; `A_i` is element `i - 1`. -/
  a : Vector (Bits f) f.na
deriving DecidableEq, Repr

/-- The OPEN parameters of an instance that a rule reads (R9): the two ROMs and `QDEPTH` (R34). -/
structure Config where
  rom32 : Rom .binary32
  rom64 : Rom .binary64
  /-- `QDEPTH`, the capacity of the in-flight queue; an admissible instance has at least 1. -/
  qdepth : Nat
deriving DecidableEq, Repr

/-- The ROM an operation of format `T` reads: only the space of its own format (spec/20_memory.md R40). -/
@[reducible] def Config.rom (c : Config) : (f : Fmt) → Rom f
  | .binary32 => c.rom32
  | .binary64 => c.rom64

/-- FREE VALUE: what `rsp_vd` shows while `rsp_valid` is 0 (R33, R36; spec/93_implementation_defined.md U1; log 3). -/
opaque Config.idleRspVd : Nat → Vec

/-- FREE VALUE: what `rsp_illegal` shows while `rsp_valid` is 0 (R33, R36; U1; log 3). -/
opaque Config.idleRspIllegal : Nat → Bool

end Sys2Proof
end

