-- ==== Sys2Proof/Machine/Format.lean ====
section
/-! DEFINITION. The format constants of spec/10_state.md R26 and the fields, classes and exact values of a pattern (spec/40_primitives.md R70, R71). -/

namespace Sys2Proof

/-- `p(T)`, the significand precision, hidden bit included (R9). -/
def Fmt.p : Fmt → Nat
  | .binary32 => 24
  | .binary64 => 53

/-- `EXPONENT_SHIFT`, the index of the exponent field's low bit (R26). -/
def Fmt.shift : Fmt → Nat
  | .binary32 => 23
  | .binary64 => 52

/-- The width of the exponent field: 8 and 11 bits (R70). -/
def Fmt.ebits : Fmt → Nat
  | .binary32 => 8
  | .binary64 => 11

/-- `BIAS` (R26); it is also `emax`, the maximum encodable exponent. -/
def Fmt.bias : Fmt → Nat
  | .binary32 => 127
  | .binary64 => 1023

/-- `EXP_ALL_ONES = 2·BIAS + 1`, the exponent field of an infinity or a NaN (R26). -/
def Fmt.expAllOnes (f : Fmt) : Nat := 2 * f.bias + 1

/-- `emin = 1 - BIAS`, the exponent of the smallest normal binade (R71). -/
def Fmt.emin (f : Fmt) : Int := 1 - (f.bias : Int)

/-- The exponent of the smallest subnormal, `emin - EXPONENT_SHIFT`: every finite value of the format is a whole
multiple of two to this power (R71). -/
def Fmt.unit (f : Fmt) : Int := f.emin - (f.shift : Int)

/-- `SIGN`, the pattern with only the sign bit set (R26). -/
def Fmt.signBit : (f : Fmt) → Bits f
  | .binary32 => 0x80000000
  | .binary64 => 0x8000000000000000

/-- `ONE`, the pattern of 1.0 (R26). -/
def Fmt.one : (f : Fmt) → Bits f
  | .binary32 => 0x3F800000
  | .binary64 => 0x3FF0000000000000

/-- `TWO`, the pattern of 2.0 (R26). -/
def Fmt.two : (f : Fmt) → Bits f
  | .binary32 => 0x40000000
  | .binary64 => 0x4000000000000000

/-- `PINF`, the pattern of +∞ (R26). -/
def Fmt.pinf : (f : Fmt) → Bits f
  | .binary32 => 0x7F800000
  | .binary64 => 0x7FF0000000000000

/-- `NINF`, the pattern of −∞ (R26). -/
def Fmt.ninf : (f : Fmt) → Bits f
  | .binary32 => 0xFF800000
  | .binary64 => 0xFFF0000000000000

/-- `PZERO`, the pattern of +0 (R26). -/
def Fmt.pzero : (f : Fmt) → Bits f
  | .binary32 => 0x00000000
  | .binary64 => 0x0000000000000000

/-- `QNAN`, the canonical quiet NaN (R26, R75). -/
def Fmt.qnan : (f : Fmt) → Bits f
  | .binary32 => 0x7FC00000
  | .binary64 => 0x7FF8000000000000

namespace Machine

variable {f : Fmt}

/-- The sign, bit `w(T) - 1` (R70); `true` is negative. -/
def sign (b : Bits f) : Bool := b.msb

/-- The biased exponent `E = b[w(T)-2 : EXPONENT_SHIFT]` (R70). -/
def expField (b : Bits f) : Nat := (b.extractLsb' f.shift f.ebits).toNat

/-- The fraction `F = b[EXPONENT_SHIFT-1 : 0]` (R70). -/
def fracField (b : Bits f) : Nat := (b.extractLsb' 0 f.shift).toNat

/-- NaN: exponent all ones and fraction not zero, of either sign, quiet or signalling (R71, R84). -/
def fnan (b : Bits f) : Bool := expField b == f.expAllOnes && fracField b != 0

/-- An infinity: exponent all ones and fraction zero (R71). -/
def finf (b : Bits f) : Bool := expField b == f.expAllOnes && fracField b == 0

/-- Finite: normal, subnormal or zero (R71). -/
def finite (b : Bits f) : Bool := expField b != f.expAllOnes

/-- Either zero (R71). -/
def fzero (b : Bits f) : Bool := expField b == 0 && fracField b == 0

/-- A quiet NaN: the top fraction bit is set (R71). -/
def quietNan (b : Bits f) : Bool := fnan b && b.getLsbD (f.shift - 1)

/-- `|val(b)|` of a finite pattern, counted in units of the smallest subnormal `2^(emin - EXPONENT_SHIFT)` (R71):
`F` for a zero or a subnormal, `(2^EXPONENT_SHIFT + F) · 2^(E - 1)` for a normal. -/
def magnitude (b : Bits f) : Nat :=
  if expField b = 0 then fracField b else (2 ^ f.shift + fracField b) * 2 ^ (expField b - 1)

/-- `val(b)` of a finite pattern in the same units: an exact integer (R71). -/
def val (b : Bits f) : Int := if sign b then -(magnitude b : Int) else (magnitude b : Int)

/-- `val(b)` of a finite pattern as a rational number (R14, R71). -/
def valRat (b : Bits f) : Rat := mkRat (val b) (2 ^ (-f.unit).toNat)

end Machine

end Sys2Proof
end

