-- ==== Sys2Proof/Machine/Primitives.lean ====
section
/-! DEFINITION. The arithmetic primitives of spec/40_primitives.md (R72 to R90): one lane, no flags, no modes, always to nearest even. -/

namespace Sys2Proof.Machine

variable {f : Fmt}

/-- `a / 2^j` rounded to the nearest integer, ties to even; exact when `j ≤ 0`.
It is the rounding step of R74, R81 and R82. -/
def nearestEven (a : Nat) (j : Int) : Nat :=
  if j ≤ 0 then a * 2 ^ (-j).toNat
  else
    let u := 2 ^ j.toNat
    let k := a / u
    let r := a % u
    if 2 * r > u ∨ (2 * r = u ∧ k % 2 = 1) then k + 1 else k

/-- The last four lines of R74: the pattern, sign apart, of `k · 2^(ex - EXPONENT_SHIFT)`. -/
def packMagnitude (f : Fmt) (k : Nat) (ex : Int) : Bits f :=
  if ex > (f.bias : Int) then f.pinf
  else if k < 2 ^ f.shift then BitVec.ofNat f.w k
  else BitVec.ofNat f.w (((ex + (f.bias : Int)).toNat <<< f.shift) ||| (k - 2 ^ f.shift))

/-- `RN_T(q, zs)` (R74) of the exact value `q = n · 2^t`; `zs` is the sign to give an exact zero. -/
def roundNE (f : Fmt) (n : Int) (t : Int) (zs : Bool) : Bits f :=
  if n = 0 then (if zs then f.signBit else f.pzero)
  else
    let a := n.natAbs
    let ex := max ((a.log2 : Int) + t) f.emin
    let k := nearestEven a (ex - (f.shift : Int) - t)
    let bits := if k = 2 ^ f.p then packMagnitude f (k / 2) (ex + 1) else packMagnitude f k ex
    if n < 0 then bits ||| f.signBit else bits

/-- `fadd(a, b)`, the rounded sum (R76). -/
def fadd (a b : Bits f) : Bits f :=
  if fnan a || fnan b then f.qnan
  else if finf a then (if finf b && (sign a != sign b) then f.qnan else a)
  else if finf b then b
  else roundNE f (val a + val b) f.unit (sign a && sign b)

/-- `fmul(a, b)`, the rounded product (R77). -/
def fmul (a b : Bits f) : Bits f :=
  if fnan a || fnan b then f.qnan
  else if finf a || finf b then
    (if fzero a || fzero b then f.qnan else if sign a ^^ sign b then f.ninf else f.pinf)
  else roundNE f (val a * val b) (2 * f.unit) (sign a ^^ sign b)

/-- `fma(a, b, c)`, the fused `a·b + c` with one rounding (R78).
The product is counted in units of `2^(2·unit)`, so the addend is scaled by `2^(-unit)` to the same units. -/
def fma (a b c : Bits f) : Bits f :=
  let ps := sign a ^^ sign b
  if fnan a || fnan b || fnan c then f.qnan
  else if finf a || finf b then
    if fzero a || fzero b then f.qnan
    else if finf c && (sign c != ps) then f.qnan
    else if ps then f.ninf else f.pinf
  else if finf c then c
  else
    let pr := val a * val b
    let q := pr + val c * ((2 ^ (-f.unit).toNat : Nat) : Int)
    if q = 0 then roundNE f 0 0 (decide (pr = 0) && ps && sign c)
    else roundNE f q (2 * f.unit) false

/-- `fneg(a)`: flips the sign bit of any pattern, NaN included (R79). -/
def fneg (a : Bits f) : Bits f := a ^^^ f.signBit

/-- `fabs(a)`: clears the sign bit of any pattern, NaN included (R80). -/
def fabs (a : Bits f) : Bits f := a &&& ~~~f.signBit

/-- `rint(a)`: to an integral value of the same format, ties to even, the sign kept even on a zero (R81). -/
def rint (a : Bits f) : Bits f :=
  if fnan a then f.qnan
  else if finf a then a
  else
    let k := nearestEven (magnitude a) (-f.unit)
    roundNE f (if sign a then -(k : Int) else (k : Int)) 0 (sign a)

/-- `INT_MAX_T = 2^(w(T)-1) - 1` (R86). -/
def intMax (f : Fmt) : Int := ((2 ^ (f.w - 1) : Nat) : Int) - 1

/-- `INT_MIN_T = -2^(w(T)-1)` (R86). -/
def intMin (f : Fmt) : Int := -((2 ^ (f.w - 1) : Nat) : Int)

/-- `f2i(a)`: nearest integer, saturating, NaN to 0 (R82). -/
def f2i (a : Bits f) : IntT f :=
  if fnan a then 0
  else if finf a then BitVec.ofInt f.w (if sign a then intMin f else intMax f)
  else
    let k := nearestEven (magnitude a) (-f.unit)
    BitVec.ofInt f.w (min (intMax f) (max (intMin f) (if sign a then -(k : Int) else (k : Int))))

/-- `i2f(n)` (R83). -/
def i2f (n : IntT f) : Bits f := roundNE f n.toInt 0 false

/-- `select(m, a, b)`: one of the two values, bit for bit (R85). -/
def select {α : Type} (m : Bool) (a b : α) : α := if m then a else b

/-- `n >>a k`, the arithmetic right shift (R87). -/
def shiftRightArith (n : IntT f) (k : Nat) : IntT f := n.sshiftRight k

/-- `u << k`, the logical left shift (R87). -/
def shiftLeft (u : Bits f) (k : Nat) : Bits f := u <<< k

/-- `u >> k`, the logical right shift (R87). -/
def shiftRight (u : Bits f) (k : Nat) : Bits f := u >>> k

end Sys2Proof.Machine
end

