-- ==== Sys2Proof/Machine/Flags.lean ====
section
/-! DEFINITION. The comparisons of spec/40_primitives.md R84 and the classification masks of spec/45_special_value_classifier_blender.md (R171 to R174).
The block has no status flags (spec/10_state.md R29): these Booleans live only within one lane of one operation. -/

namespace Sys2Proof.Machine

variable {f : Fmt}

/-- The value of a pattern that is not a NaN, infinities included; a finite value is counted as `val` counts it. -/
inductive OrdVal where
  | negInf
  | fin (v : Int)
  | posInf
deriving DecidableEq, Repr

/-- `ord(a)` of R84: `+∞` above and `−∞` below every finite value. -/
def ord (a : Bits f) : OrdVal :=
  if finf a then (if sign a then .negInf else .posInf) else .fin (val a)

/-- The order of R84 on those values. -/
def OrdVal.lt : OrdVal → OrdVal → Bool
  | .negInf, .negInf => false
  | .negInf, .fin _ => true
  | .negInf, .posInf => true
  | .fin _, .negInf => false
  | .fin a, .fin b => decide (a < b)
  | .fin _, .posInf => true
  | .posInf, .negInf => false
  | .posInf, .fin _ => false
  | .posInf, .posInf => false

/-- `flt(a, b)`: ordered less, false when either is a NaN (R84). -/
def flt (a b : Bits f) : Bool := !fnan a && !fnan b && (ord a).lt (ord b)

/-- `fgt(a, b)`: ordered greater (R84). -/
def fgt (a b : Bits f) : Bool := flt b a

/-- `feq(a, b)`: ordered equal; `+0` and `−0` are equal (R84). -/
def feq (a b : Bits f) : Bool := !fnan a && !fnan b && decide (ord a = ord b)

/-- `m_small`: the magnitude is below `THRESHOLD_2` (R171). -/
def maskSmall (rom : Rom f) (x : Bits f) : Bool := flt (fabs x) rom.threshold2

/-- `m_pinf`: above `THRESHOLD_1`, or +∞ (R172). -/
def maskPinf (rom : Rom f) (x : Bits f) : Bool := fgt x rom.threshold1 || feq x f.pinf

/-- `m_zero`: below `-THRESHOLD_1`, or −∞ (R173). -/
def maskZero (rom : Rom f) (x : Bits f) : Bool := flt x (fneg rom.threshold1) || feq x f.ninf

/-- `m_nan`: a NaN of any sign and kind (R174). -/
def maskNan (x : Bits f) : Bool := fnan x

end Sys2Proof.Machine
end

