-- ==== Sys2Proof/Machine/Classifier.lean ====
section
/-! DEFINITION. Stage 4, `special_value_classifier_blender` (spec/45_special_value_classifier_blender.md R170 to R176). -/

namespace Sys2Proof.Machine

variable {f : Fmt}

/-- The linear value `fadd(ONE, x)` (R175). -/
def linear (x : Bits f) : Bits f := fadd f.one x

/-- The blend: the four overrides in the order small, +∞, zero, NaN, the last applied winning (R170, R176). -/
def classifyBlend (rom : Rom f) (x r1 : Bits f) : Bits f :=
  let y := select (maskSmall rom x) (linear x) r1
  let y := select (maskPinf rom x) f.pinf y
  let y := select (maskZero rom x) f.pzero y
  select (maskNan x) x y

end Sys2Proof.Machine
end

