-- ==== Sys2Proof/Machine/Operands.lean ====
section
/-! DEFINITION. The one operand form: a whole vector by value, read and written lane by lane (spec/10_state.md R32, spec/30_encoding.md R57, R65). -/

namespace Sys2Proof.Machine

/-- Lane `i` of a vector of format `T`: bits `[w(T)·i + w(T) - 1 : w(T)·i]`, lane 0 least significant (R12, R32). -/
def lane (f : Fmt) (i : Nat) (v : Vec) : Bits f := v.extractLsb' (f.w * i) f.w

/-- The bits of lane `i`, all ones, every other bit zero. -/
def laneMask (f : Fmt) (i : Nat) : Vec := (BitVec.allOnes f.w).setWidth 512 <<< (f.w * i)

/-- `VD[i] <- y`: the vector with lane `i` replaced (R12, R57). -/
def writeLane (f : Fmt) (i : Nat) (y : Bits f) (v : Vec) : Vec :=
  (v &&& ~~~laneMask f i) ||| (y.setWidth 512 <<< (f.w * i))

/-- The result vector: zero, then lanes `0` to `n - 1` each written with the lane function of the operand's lane;
the bits above stay 0 (R57; spec/46_fp_exp_approx_kernel.md, the pseudocode of `VEXP`). -/
def mapLanes (f : Fmt) (g : Bits f → Bits f) (vs : Vec) : Nat → Vec
  | 0 => 0
  | n + 1 => writeLane f n (g (lane f n vs)) (mapLanes f g vs n)

end Sys2Proof.Machine
end

