-- ==== Sys2Proof/Machine/Polynomial.lean ====
section
/-! DEFINITION. Stage 2, `polynomial_eval_horner` (spec/42_polynomial_eval_horner.md R120 to R125). -/

namespace Sys2Proof.Machine

variable {f : Fmt}

/-- The Horner value: one fused step for binary32 (R123), four for binary64 (R122). -/
def horner : {f : Fmt} → Rom f → Bits f → Bits f
  | .binary32, rom, r => fma (rom.a[1]'(by decide)) r (rom.a[0]'(by decide))
  | .binary64, rom, r =>
    let q4 := fma (rom.a[4]'(by decide)) r (rom.a[3]'(by decide))
    let q3 := fma q4 r (rom.a[2]'(by decide))
    let q2 := fma q3 r (rom.a[1]'(by decide))
    fma q2 r (rom.a[0]'(by decide))

/-- The named values of stage 2 (spec/10_state.md R31); `p` is the stage's output. -/
structure Polynomial (f : Fmt) where
  r : Bits f
  q : Bits f
  p : Bits f
deriving DecidableEq, Repr

/-- The composition of R121 to R125: `R1` and `R2` stay two values, and `R1` is added last. -/
def polynomialEval (rom : Rom f) (r1 r2 : Bits f) : Polynomial f :=
  let r := fadd r1 r2
  let q := fmul r (horner rom r)
  let p := fadd r1 (fma r q r2)
  { r, q, p }

end Sys2Proof.Machine
end

