-- ==== Sys2Proof/Machine/RangeReducer.lean ====
section
/-! DEFINITION. Stage 1, `range_reducer` (spec/41_range_reducer.md R100 to R109). -/

namespace Sys2Proof.Machine

variable {f : Fmt}

/-- The named values of stage 1 (spec/10_state.md R31); `m`, `n2`, `r1`, `r2` are the stage's outputs. -/
structure Reduction (f : Fmt) where
  t : Bits f
  nf : Bits f
  n : IntT f
  n2 : IntT f
  n1 : IntT f
  m : IntT f
  n1f : Bits f
  n2f : Bits f
  r1a : Bits f
  r1b : Bits f
  big : Bool
  r1 : Bits f
  r2 : Bits f
deriving DecidableEq, Repr

/-- `BIG_N`, the magnitude of `N` at which the split reduction path is taken (R9, R108). -/
def bigN : Int := 512

/-- `N2 = N & 31` (R104). -/
def tableIndex (n : IntT f) : IntT f := n &&& 31

/-- `N1 = N - N2` (R104). -/
def multipleOf32 (n : IntT f) : IntT f := n - tableIndex n

/-- `M = N1 >>a 5` (R105). -/
def exponentQuotient (n : IntT f) : IntT f := shiftRightArith (multipleOf32 n) 5

/-- `big = (N ≥ 512) or (N ≤ -512)`, signed, on the integer (R108). -/
def isBig (n : IntT f) : Bool := decide (bigN ≤ n.toInt) || decide (n.toInt ≤ -bigN)

/-- The composition of R101 to R109, every value of it computed for every lane (R100). -/
def rangeReducer (rom : Rom f) (x : Bits f) : Reduction f :=
  let t := fmul x rom.invL
  let nf := rint t
  let n := f2i nf
  let n2 := tableIndex n
  let n1 := multipleOf32 n
  let m := exponentQuotient n
  let n1f := i2f n1
  let n2f := i2f n2
  let r1a := fma (fneg nf) rom.l1 x
  let r1b := fma (fneg n2f) rom.l1 (fma (fneg n1f) rom.l1 x)
  let big := isBig n
  let r1 := select big r1b r1a
  let r2 := fmul (fneg nf) rom.l2
  { t, nf, n, n2, n1, m, n1f, n2f, r1a, r1b, big, r1, r2 }

end Sys2Proof.Machine
end

