-- ==== Sys2Proof/Machine/TableLookup.lean ====
section
/-! DEFINITION. The ROM address spaces and their one access, the gather (spec/20_memory.md R40 to R48); stage 3a, `table_lookup_2power_n32` (spec/43_table_lookup_2power_n32.md R135, R136). -/

namespace Sys2Proof.Machine

variable {f : Fmt}

/-- The entry map of a ROM space (R41): 76 entries, each as wide as a lane.
`none` is an index outside the space, which no operation can form (R48). -/
def romEntry (rom : Rom f) (idx : Nat) : Option (Bits f) :=
  if h : idx < 32 then some rom.sLead[idx]
  else if h' : idx - 32 < 32 then some rom.sTrail[idx - 32]
  else if idx = 64 then some rom.threshold1
  else if idx = 65 then some rom.threshold2
  else if idx = 66 then some rom.invL
  else if idx = 67 then some rom.l1
  else if idx = 68 then some rom.l2
  else if idx < 74 then some (rom.a.toList.getD (idx - 69) 0)
  else if idx < 76 then some 0
  else none

/-- `MemRead(S_lead_T, idx)` (R42); the low five bits of the index are all of it (R43). -/
def memReadLead (rom : Rom f) (idx : IntT f) : Bits f :=
  rom.sLead[idx.toNat % 32]'(Nat.mod_lt _ (by decide))

/-- `MemRead(S_trail_T, idx)` (R42). -/
def memReadTrail (rom : Rom f) (idx : IntT f) : Bits f :=
  rom.sTrail[idx.toNat % 32]'(Nat.mod_lt _ (by decide))

/-- The named values of stage 3a (spec/10_state.md R31). -/
structure TableEntry (f : Fmt) where
  sl : Bits f
  st : Bits f
  s : Bits f
deriving DecidableEq, Repr

/-- The gather of one lane and the summed entry (R135, R136). -/
def tableLookup (rom : Rom f) (n2 : IntT f) : TableEntry f :=
  let sl := memReadLead rom n2
  let st := memReadTrail rom n2
  { sl, st, s := fadd sl st }

end Sys2Proof.Machine
end

