-- ==== Sys2Proof/Machine/Reconstruct.lean ====
section
/-! DEFINITION. Stage 3b, `lead_trail_compensated_mult` (spec/44_lead_trail_compensated_mult.md R150 to R156). -/

namespace Sys2Proof.Machine

variable {f : Fmt}

/-- `pow2_bits(e)`: the power of two `2^(e - BIAS)` made from bits (R154).
The subnormal arm shifts `HALF_MIN` right, the amount clamped to `w(T) - 1`. -/
def pow2Bits (e : IntT f) : Bits f :=
  let halfMin : Bits f := shiftLeft 1 (f.shift - 1)
  select (decide (1 ≤ e.toInt)) (shiftLeft e f.shift)
    (shiftRight halfMin (min (-e.toInt).toNat (f.w - 1)))

/-- The biased exponent `M + BIAS` (R152). -/
def biasedExponent (m : IntT f) : IntT f := m + BitVec.ofNat f.w f.bias

/-- `fix = biased ≥ EXP_ALL_ONES`, signed (R153). -/
def needsDoubling (biased : IntT f) : Bool := decide ((f.expAllOnes : Int) ≤ biased.toInt)

/-- The exponent actually encoded (R153). -/
def encodedExponent (biased : IntT f) : IntT f :=
  select (needsDoubling biased) (BitVec.ofNat f.w (f.expAllOnes - 1)) biased

/-- The named values of stage 3b (spec/10_state.md R31); `r1` is the unclassified result. -/
structure Reconstruction (f : Fmt) where
  entry : TableEntry f
  p2 : Bits f
  biased : IntT f
  fix : Bool
  e : IntT f
  scale : Bits f
  r0 : Bits f
  r1 : Bits f
deriving DecidableEq, Repr

/-- The composition of R151 to R156 after the gather; the dominant term `S_lead` is added last. -/
def reconstruct (rom : Rom f) (m n2 : IntT f) (p : Bits f) : Reconstruction f :=
  let entry := tableLookup rom n2
  let p2 := fadd entry.sl (fma entry.s p entry.st)
  let biased := biasedExponent m
  let fix := needsDoubling biased
  let e := encodedExponent biased
  let scale := pow2Bits e
  let r0 := fmul scale p2
  let r1 := select fix (fmul r0 f.two) r0
  { entry, p2, biased, fix, e, scale, r0, r1 }

end Sys2Proof.Machine
end

