-- ==== Sys2Proof/Machine/Lane.lean ====
section
/-! DEFINITION. The lane function and its application to every lane of a vector (spec/46_fp_exp_approx_kernel.md R190, R196). -/

namespace Sys2Proof.Machine

variable {f : Fmt}

/-- The unclassified result `r1` of a lane: stages 1 to 3 chained (R190). -/
def unclassified (rom : Rom f) (x : Bits f) : Bits f :=
  let red := rangeReducer rom x
  let pol := polynomialEval rom red.r1 red.r2
  (reconstruct rom red.m red.n2 pol.p).r1

/-- `exp_lane_T(x)`: the four stages (R190). -/
def expLane (rom : Rom f) (x : Bits f) : Bits f := classifyBlend rom x (unclassified rom x)

/-- `VEXP(T, W, vs)`: the lane function on each of the `W` lanes, zero above them. -/
def vexp (rom : Rom f) (W : Nat) (vs : Vec) : Vec := mapLanes f (expLane rom) vs W

end Sys2Proof.Machine
end

