-- ==== Sys2Proof/Machine/ReferenceRom.lean ====
section
/-! DEFINITION. The reference ROM image: the spec's own instance of the OPEN parameter `ROM(T)` (spec/10_state.md R24, spec/43_table_lookup_2power_n32.md R137, R138). -/

namespace Sys2Proof.Machine

/-- `S_lead` of the binary32 reference table (R137). -/
def referenceLead32 : Vector (Bits .binary32) 32 :=
  #v[0x3F800000, 0x3F82CD80, 0x3F85AA80, 0x3F889800, 0x3F8B9580, 0x3F8EA400, 0x3F91C380, 0x3F94F480,
    0x3F983780, 0x3F9B8D00, 0x3F9EF500, 0x3FA27000, 0x3FA5FE80, 0x3FA9A100, 0x3FAD5800, 0x3FB12380,
    0x3FB50480, 0x3FB8FB80, 0x3FBD0880, 0x3FC12C00, 0x3FC56700, 0x3FC9B980, 0x3FCE2480, 0x3FD2A800,
    0x3FD74480, 0x3FDBFB80, 0x3FE0CC80, 0x3FE5B900, 0x3FEAC080, 0x3FEFE480, 0x3FF52500, 0x3FFA8380]

/-- `S_trail` of the binary32 reference table (R137). -/
def referenceTrail32 : Vector (Bits .binary32) 32 :=
  #v[0x00000000, 0x35531585, 0x3706CF99, 0x35E8092E, 0x3703C7D5, 0x36E62D17, 0x3726E756, 0x375F51FE,
    0x3760A31B, 0x36E6E755, 0x36C98247, 0x37060619, 0x372D5363, 0x373569D5, 0x36FBA90B, 0x376B03A5,
    0x376667F4, 0x36BD1D8C, 0x368E7D60, 0x371994CD, 0x36A84554, 0x36F619B9, 0x35C151F8, 0x366C8F89,
    0x377995AD, 0x36DE5F6C, 0x373DD855, 0x355CEF90, 0x370DCFBA, 0x36E66F73, 0x377A2A49, 0x36CB6DC9]

/-- `S_lead` of the binary64 reference table (R138). -/
def referenceLead64 : Vector (Bits .binary64) 32 :=
  #v[0x3FF0000000000000, 0x3FF059B0D3158540, 0x3FF0B5586CF98900, 0x3FF11301D0125B40,
    0x3FF172B83C7D5140, 0x3FF1D4873168B980, 0x3FF2387A6E756200, 0x3FF29E9DF51FDEC0,
    0x3FF306FE0A31B700, 0x3FF371A7373AA9C0, 0x3FF3DEA64C123400, 0x3FF44E0860618900,
    0x3FF4BFDAD5362A00, 0x3FF5342B569D4F80, 0x3FF5AB07DD485400, 0x3FF6247EB03A5580,
    0x3FF6A09E667F3BC0, 0x3FF71F75E8EC5F40, 0x3FF7A11473EB0180, 0x3FF82589994CCE00,
    0x3FF8ACE5422AA0C0, 0x3FF93737B0CDC5C0, 0x3FF9C49182A3F080, 0x3FFA5503B23E2540,
    0x3FFAE89F995AD380, 0x3FFB7F76F2FB5E40, 0x3FFC199BDD855280, 0x3FFCB720DCEF9040,
    0x3FFD5818DCFBA480, 0x3FFDFC97337B9B40, 0x3FFEA4AFA2A490C0, 0x3FFF50765B6E4540]

/-- `S_trail` of the binary64 reference table (R138). -/
def referenceTrail64 : Vector (Bits .binary64) 32 :=
  #v[0x0000000000000000, 0x3D0A1D73E2A475B4, 0x3CEEC5317256E308, 0x3CF0A4EBBF1AED93,
    0x3D0D6E6FBE462876, 0x3D053C02DC0144C8, 0x3D0C3360FD6D8E0B, 0x3D009612E8AFAD12,
    0x3CF52DE8D5A46306, 0x3CE54E28AA05E8A9, 0x3D011ADA0911F09F, 0x3D068189B7A04EF8,
    0x3D038EA1CBD7F621, 0x3CBDF0A83C49D86A, 0x3D04AC64980A8C8F, 0x3CD2C7C3E81BF4B7,
    0x3CE921165F626CDD, 0x3D09EE91B8797785, 0x3CDB5F54408FDB37, 0x3CF28ACF88AFAB35,
    0x3CFB5BA7C55A192D, 0x3D027A280E1F92A0, 0x3CF01C7C46B071F3, 0x3CFC8B424491CAF8,
    0x3D06AF439A68BB99, 0x3CDBAA9EC206AD4F, 0x3CFC2220CB12A092, 0x3D048A81E5E8F4A5,
    0x3CDC976816BAD9B8, 0x3CFEB968CAC39ED3, 0x3CF9858F73A18F5E, 0x3C99D3E12DD8A18B]

/-- The binary32 reference ROM; scalars from R24. -/
def referenceRom32 : Rom .binary32 where
  sLead := referenceLead32
  sTrail := referenceTrail32
  threshold1 := 0x42B17217
  threshold2 := 0x33000000
  invL := 0x4238AA3B
  l1 := 0x3CB17200
  l2 := 0x333FBE8E
  a := #v[0x3F000044, 0x3E2AAAEC]

/-- The binary64 reference ROM; scalars from R24. -/
def referenceRom64 : Rom .binary64 where
  sLead := referenceLead64
  sTrail := referenceTrail64
  threshold1 := 0x40862E42FEFA39EF
  threshold2 := 0x3C90000000000000
  invL := 0x40471547652B82FE
  l1 := 0x3F962E42FEF00000
  l2 := 0x3D8473DE6AF278ED
  a := #v[0x3FE0000000000000, 0x3FC5555555548F7C, 0x3FA5555555545D4E, 0x3F811115B7AA905E, 0x3F56C1728D739765]

/-- The reference ROM of each format. -/
def referenceRom : (f : Fmt) → Rom f
  | .binary32 => referenceRom32
  | .binary64 => referenceRom64

/-- The configuration the reset state is built with: the reference ROMs (log 1) and a queue of one entry (log 2). -/
def referenceConfig : Config where
  rom32 := referenceRom32
  rom64 := referenceRom64
  qdepth := 1

end Sys2Proof.Machine
end

