-- ==== Sys2Proof/Machine/State.lean ====
section
/-! DEFINITION. The machine's state as plain data, its reset value, and the reasons a run can stop. -/

namespace Sys2Proof.Machine

/-- A response as the port carries it while `rsp_valid` is 1: `rsp_vd` and `rsp_illegal` (spec/10_state.md R33, R35). -/
structure Response where
  vd : Vec
  illegal : Bool
deriving DecidableEq, Repr

/-- What the host drives over one rising edge of `clk`: the input ports of R33. -/
structure PortIn where
  /-- `rst_n`; `false` is reset. -/
  rstN : Bool
  /-- `cmd_valid`. -/
  cmdValid : Bool
  /-- `cmd_op`. -/
  cmdOp : CmdWord
  /-- `cmd_vs`. -/
  cmdVs : Vec
deriving DecidableEq, Repr

/-- The host driving no reset and no command; the operand ports may hold anything then (U11). -/
def PortIn.idle : PortIn := ⟨true, false, 0, 0⟩

/-- Which agent moves next, and how: the host's reset or `accept`, the kernel's `respond`, or neither (R35, R230). -/
inductive Move where
  | reset
  | accept (c : Command)
  | respond (c : Command)
  | idle
deriving DecidableEq, Repr

/-- Reasons for a fault. No meaning and no step of the model raises one: an illegal command is answered, as the hardware
answers it (log 4). `Sys2Proof.Safety.faultReading`, the spec's recommended reading for a run, raises the one there is. -/
inductive Fault where
  /-- `IllegalCommand(op)` read as the end of the run (spec/60_exceptions.md R212). Raised by `Safety.faultReading` only.
  Safe: the hardware carries on where that reading stops. -/
  | illegalCommand (op : CmdWord)
deriving DecidableEq, Repr

/-- Reasons for a refusal. No meaning and no step raises one. -/
inductive Refusal where
  /-- The instruction has no meaning in the model. No arm of `exec` raises it. Safe. -/
  | notModelled (mnemonic : String)
  /-- The instance's ROM image or queue capacity is not admissible (R25, R34; U5). Raised by `Machine.boot`, before a
  machine exists. Safe: no rule says anything of such an instance. -/
  | notAdmissible
deriving DecidableEq, Repr

/-- Everything the spec gives the machine, and what the outside does to it. -/
structure State where
  /-- `ROM(binary32)`, `ROM(binary64)` (R21 (a)) and `QDEPTH` (R34): fixed for the instance; no step writes them. -/
  cfg : Config
  /-- The in-flight queue `Q`, oldest command first (R21 (b), R34). -/
  q : List Command
  /-- The response port: `none` while `rsp_valid` is 0, else the response being delivered (R33). -/
  rsp : Option Response
  /-- The host agent: what it drives over the coming clock edges, next edge first; after the last it is idle (R18, R33). -/
  host : List PortIn
  /-- What the host has taken: every response delivered, oldest first (R66). The model's own record of the outside. -/
  out : List Response
  /-- The model's own counter of free draws: the index of the values the response port shows while `rsp_valid` is 0 (log 3). -/
  draws : Nat
deriving DecidableEq, Repr

/-- The machine right after reset (R36): the queue empty, `rsp_valid` 0, nothing delivered and nothing presented.
The ROM keeps its constant contents; here they are the reference image (log 1), with `QDEPTH` = 1 (log 2). -/
def State.reset : State where
  cfg := referenceConfig
  q := []
  rsp := none
  host := []
  out := []
  draws := 0

end Sys2Proof.Machine
end

