-- ==== Sys2Proof/Machine/Ops.lean ====
section
/-! DEFINITION. The ports as functions of the state, which agent moves next, and the named operations that change the state (spec/10_state.md R33 to R35, spec/60_exceptions.md R212, spec/70_reset_and_hazards.md R230). -/

namespace Sys2Proof.Machine

/-- The input ports sampled at the next clock edge (R33). -/
def State.portIn (s : State) : PortIn := s.host.headD PortIn.idle

/-- The output port `cmd_ready`: 0 while `rst_n` is 0 (R230), else whether `Q` has room (R33). -/
def State.cmdReady (s : State) : Bool := s.portIn.rstN && decide (s.q.length < s.cfg.qdepth)

/-- The output port `rsp_valid` (R33). -/
def State.rspValid (s : State) : Bool := s.rsp.isSome

/-- The output port `rsp_vd`: any value while `rsp_valid` is 0 (R33, U1). -/
def State.rspVd (s : State) : Vec :=
  match s.rsp with
  | some r => r.vd
  | none => Config.idleRspVd s.draws

/-- The output port `rsp_illegal`: any value while `rsp_valid` is 0 (R33, U1). -/
def State.rspIllegal (s : State) : Bool :=
  match s.rsp with
  | some r => r.illegal
  | none => Config.idleRspIllegal s.draws

/-- The steps of R35 and the reset of R230, and which of them is taken: reset when `rst_n` is sampled 0;
`accept` when a command is presented and there is room; otherwise it is the kernel's turn. -/
def State.nextMove (s : State) : Move :=
  if s.portIn.rstN = false then .reset
  else if s.portIn.cmdValid && s.cmdReady then .accept ⟨s.portIn.cmdOp, s.portIn.cmdVs⟩
  else
    match s.q with
    | [] => .idle
    | c :: _ => .respond c

/-- The host's edges after one on which the kernel moved: a command presented and not accepted is presented again (R234). -/
def State.hostAfterTurn (s : State) : List PortIn :=
  if s.portIn.cmdValid then s.host else s.host.tail

/-- No response on the port: `rsp_valid` is 0, and what the other two ports show is drawn anew (U1). -/
def State.noResponse (s : State) : State := { s with rsp := none, draws := s.draws + 1 }

/-- Reset (R230): `Q` is emptied, every unanswered command discarded, `rsp_valid` 0; the ROM keeps its contents. -/
def resetStep (s : State) : State := { s.noResponse with q := [], host := s.host.tail }

/-- `accept(op, vs)` (R35): the command joins the end of the queue, whatever its word (R59). -/
def acceptStep (c : Command) (s : State) : State := { s.noResponse with q := s.q ++ [c], host := s.host.tail }

/-- Nothing is presented that can be accepted and nothing is queued. -/
def idleStep (s : State) : State := { s.noResponse with host := s.hostAfterTurn }

/-- The first half of `respond` (R35): the head command leaves the queue. -/
def dequeue (s : State) : State := { s with q := s.q.tail, host := s.hostAfterTurn }

/-- The second half of `respond`: `emit Response`, one per command, in order (R35, R236). -/
def emit (r : Response) (s : State) : State := { s with rsp := some r, out := s.out ++ [r] }

/-- `raise IllegalCommand(op)` (R212): the one exception of the block, shared by every illegal row. Its entry is a response
with `rsp_illegal` = 1 and `rsp_vd` = 0 and nothing else: no state is saved, no control transfer made, the operand not looked
at, `op` not recorded. There is no return from it (spec/60_exceptions.md R215). -/
def raiseIllegalCommand (_op : CmdWord) (s : State) : State := emit ⟨0, true⟩ s

/-- The response of a legal operation: `VEXP(T, W, vs)` with the ROM of its format (R35, R190). -/
def answerVexp (f : Fmt) (W : Nat) (vs : Vec) (s : State) : State := emit ⟨vexp (s.cfg.rom f) W vs, false⟩ s

/-- The response the block owes a command (R35): `VEXP(op, vs)` with `(T, W)` decoded from the word's fields (R56) where
the word is legal, the `IllegalCommand` response (R212) where it is not. -/
def answer (cfg : Config) (c : Command) : Response :=
  if legal c.op then ⟨vexp (cfg.rom (opFormat c.op)) (opLanes c.op) c.vs, false⟩ else ⟨0, true⟩

end Sys2Proof.Machine
end

