-- ==== Sys2Proof/Machine/Illegal.lean ====
section
/-! DEFINITION. The meanings of the illegal command words: each raises `IllegalCommand` (spec/30_encoding.md R59, spec/60_exceptions.md R212). -/

namespace Sys2Proof.Machine

/-- The word `0011`. -/
def execIllegalVl3S (_vs : Vec) (s : State) : Host.Outcome State Fault Refusal := .next (raiseIllegalCommand 0b0011 s)

/-- The word `0110`. -/
def execIllegalD16 (_vs : Vec) (s : State) : Host.Outcome State Fault Refusal := .next (raiseIllegalCommand 0b0110 s)

/-- The word `0111`. -/
def execIllegalVl3D (_vs : Vec) (s : State) : Host.Outcome State Fault Refusal := .next (raiseIllegalCommand 0b0111 s)

/-- The words `1000` to `1111`. -/
def execIllegalAlg1 (op : CmdWord) (_vs : Vec) (s : State) : Host.Outcome State Fault Refusal :=
  .next (raiseIllegalCommand op s)

end Sys2Proof.Machine
end

