-- ==== Sys2Proof/Machine/Vexp.lean ====
section
/-! DEFINITION. The meanings of the five operations (spec/46_fp_exp_approx_kernel.md R191 to R195). -/

namespace Sys2Proof.Machine

/-- `VEXP.S4` (R191). -/
def execVexpS4 (vs : Vec) (s : State) : Host.Outcome State Fault Refusal := .next (answerVexp .binary32 4 vs s)

/-- `VEXP.S8` (R192). -/
def execVexpS8 (vs : Vec) (s : State) : Host.Outcome State Fault Refusal := .next (answerVexp .binary32 8 vs s)

/-- `VEXP.S16` (R193). -/
def execVexpS16 (vs : Vec) (s : State) : Host.Outcome State Fault Refusal := .next (answerVexp .binary32 16 vs s)

/-- `VEXP.D4` (R194). -/
def execVexpD4 (vs : Vec) (s : State) : Host.Outcome State Fault Refusal := .next (answerVexp .binary64 4 vs s)

/-- `VEXP.D8` (R195). -/
def execVexpD8 (vs : Vec) (s : State) : Host.Outcome State Fault Refusal := .next (answerVexp .binary64 8 vs s)

end Sys2Proof.Machine
end

