-- ==== Sys2Proof/Machine/Dispatch.lean ====
section
/-! DEFINITION. One arm per instruction. -/

namespace Sys2Proof.Machine

/-- The meaning of an instruction whose command has left the queue: the second half of `respond` (spec/10_state.md R35). -/
def exec (i : Instr) (s : State) : Host.Outcome State Fault Refusal :=
  match i with
  | .vexpS4 vs => Sys2Proof.Machine.execVexpS4 vs s
  | .vexpS8 vs => Sys2Proof.Machine.execVexpS8 vs s
  | .vexpS16 vs => Sys2Proof.Machine.execVexpS16 vs s
  | .vexpD4 vs => Sys2Proof.Machine.execVexpD4 vs s
  | .vexpD8 vs => Sys2Proof.Machine.execVexpD8 vs s
  | .illegalVl3S vs => Sys2Proof.Machine.execIllegalVl3S vs s
  | .illegalD16 vs => Sys2Proof.Machine.execIllegalD16 vs s
  | .illegalVl3D vs => Sys2Proof.Machine.execIllegalVl3D vs s
  | .illegalAlg1 op vs => Sys2Proof.Machine.execIllegalAlg1 op vs s

end Sys2Proof.Machine
end

