-- ==== Sys2Proof/Machine/Step.lean ====
section
/-! DEFINITION. One step of the machine, and how a word is placed where the next step takes its command from. -/

namespace Sys2Proof.Machine

/-- One step: the move the state calls for (spec/10_state.md R35). When it is the kernel's, the head command is decoded,
leaves the queue, and its instruction runs. -/
def step (s : State) : Host.Outcome State Fault Refusal :=
  match s.nextMove with
  | .reset => .next (resetStep s)
  | .accept c => .next (acceptStep c s)
  | .respond c => exec (decode c) (dequeue s)
  | .idle => .next (idleStep s)

/-- The state with the command word `w` (and an operand of zeros) at the head of the queue, and the next clock edge
one on which the host presents nothing, so that the kernel serves it (log 5). -/
def State.withFetchWord (s : State) (_nbits w : Nat) : State :=
  { s with q := ⟨BitVec.ofNat 4 w, 0⟩ :: s.q.tail, host := PortIn.idle :: s.host }

end Sys2Proof.Machine
end

