-- ==== Sys2Proof/Machine/Admissible.lean ====
section
/-! DEFINITION. The constraints an admissible ROM image meets (spec/10_state.md R25), as checks the builder of an instance makes (R233; spec/93_implementation_defined.md U5). -/

namespace Sys2Proof.Machine

variable {f : Fmt}

/-- `a ≈ b` for a positive `b`: within one part in 1024 (log 6: the spec gives no tolerance). -/
def near (a b : Rat) : Bool := decide (b - b / 1024 ≤ a) && decide (a ≤ b + b / 1024)

/-- Finite and positive. -/
def finitePositive (b : Bits f) : Bool := finite b && decide (0 < val b)

/-- A run of zero significand bits at the end, of at least one bit (R25 item 2 gives no length). -/
def trailingZero (b : Bits f) : Bool := !b.getLsbD 0

/-- R25 items 1 and 2 for one entry: both patterns finite, the lead in `[1, 2)` with trailing zeros,
and the sum positive and `≈ 2^(k/32)`, compared through its 32nd power, which does not see the sum's sign. -/
def entryAdmissible (k : Nat) (lead trail : Bits f) : Bool :=
  finite lead && finite trail && decide (1 ≤ valRat lead) && decide (valRat lead < 2) && trailingZero lead &&
    decide (0 < valRat lead + valRat trail) && near ((valRat lead + valRat trail) ^ 32) (mkRat (2 ^ k) 1)

/-- R25 items 1 and 2 for the two tables. -/
def tableAdmissible (rom : Rom f) : Bool :=
  (List.finRange 32).all fun k => entryAdmissible k.val rom.sLead[k] rom.sTrail[k]

/-- `ln 2` to nine places, for the `≈` of R25 item 3. -/
def lnTwo : Rat := mkRat 693147181 1000000000

/-- R25 items 2 and 3 for the reduction constants: `INV_L ≈ 32 / ln 2`, `L1 + L2 ≈ ln 2 / 32`, all finite and positive. -/
def reductionAdmissible (rom : Rom f) : Bool :=
  finitePositive rom.invL && finitePositive rom.l1 && finitePositive rom.l2 && trailingZero rom.l1 &&
    near (valRat rom.invL * lnTwo) 32 && near (32 * (valRat rom.l1 + valRat rom.l2)) lnTwo

/-- R25 item 4: `0 < THRESHOLD_2 < THRESHOLD_1`, both finite. -/
def thresholdsAdmissible (rom : Rom f) : Bool :=
  finite rom.threshold1 && finite rom.threshold2 && decide (0 < val rom.threshold2) &&
    decide (val rom.threshold2 < val rom.threshold1)

/-- R25 item 5 at the one input that decides it, `x = THRESHOLD_1`: `M ≤ emax + 1`. -/
def exponentAdmissible (rom : Rom f) : Bool :=
  decide ((rangeReducer rom rom.threshold1).m.toInt ≤ (f.bias : Int) + 1)

/-- R25 item 6, for binary32 only: `88.7 ≤ THRESHOLD_1 < 103.0`. -/
def thresholdRangeAdmissible : {f : Fmt} → Rom f → Bool
  | .binary32, rom => decide (mkRat 887 10 ≤ valRat rom.threshold1) && decide (valRat rom.threshold1 < 103)
  | .binary64, _ => true

/-- R25 item 7: `A_i ≈ 1/(i+1)!`, finite and positive. -/
def coefficientsAdmissible (rom : Rom f) : Bool :=
  rom.a.toList.zipIdx.all fun c => finitePositive c.1 && near (valRat c.1 * mkRat (c.2 + 2).factorial 1) 1

/-- R25, every item. -/
def romAdmissible (rom : Rom f) : Bool :=
  tableAdmissible rom && reductionAdmissible rom && thresholdsAdmissible rom && exponentAdmissible rom &&
    thresholdRangeAdmissible rom && coefficientsAdmissible rom

/-- An instance the builder accepts: both images admissible (R25) and room for at least one command (R9, R34). -/
def configAdmissible (c : Config) : Bool :=
  romAdmissible c.rom32 && romAdmissible c.rom64 && decide (1 ≤ c.qdepth)

end Sys2Proof.Machine
end

