-- ==== Sys2Proof/Machine/Boot.lean ====
section
/-! DEFINITION. Boot: the image in place, then reset (spec/70_reset_and_hazards.md R233). -/

namespace Sys2Proof.Machine

/-- An instance with its image in place, just out of reset; an image that is not admissible is refused when the instance
is built (R233; spec/93_implementation_defined.md U5). -/
def boot (c : Config) : Host.Outcome State Fault Refusal :=
  if configAdmissible c then .next { State.reset with cfg := c } else .refused .notAdmissible

end Sys2Proof.Machine
end

