-- ==== Sys2Proof/Safety.lean ====
section
/-! DEFINITION. What claims about runs are stated in: the invariant of a state, what a state still owes its host, and the spec's fault reading of an illegal command. -/

namespace Sys2Proof.Safety

open Sys2Proof.Machine

/-- The invariant of the machine: the queue never holds more than `QDEPTH` commands (spec/10_state.md R34); the response on
the port is the last one delivered (R33); an illegal response carries the zero vector (spec/60_exceptions.md R212). -/
structure Inv (s : State) : Prop where
  queueBound : s.q.length ≤ s.cfg.qdepth
  portIsLast : ∀ r, s.rsp = some r → s.out.getLast? = some r
  illegalIsZero : ∀ r ∈ s.out, r.illegal = true → r.vd = 0

/-- The commands the host will present, in order. -/
def presented (host : List PortIn) : List Command :=
  host.filterMap fun p => if p.cmdValid then some ⟨p.cmdOp, p.cmdVs⟩ else none

/-- The host asserts no reset over the coming edges. -/
def noReset (host : List PortIn) : Bool := host.all fun p => p.rstN

/-- What the host will have been given, in order, once every queued and presented command is answered (R35, R66, R236). -/
def owed (s : State) : List Response := s.out ++ (s.q ++ presented s.host).map (answer s.cfg)

/-- No command is queued and none will be presented. -/
def drained (s : State) : Prop := s.q = [] ∧ presented s.host = []

/-- Every command queued or to be presented is an operation: the runs the spec calls free of `IllegalCommand` (R212). -/
def allLegal (s : State) : Bool := (s.q ++ presented s.host).all fun c => legal c.op

/-- The reading the spec recommends to a model (R212, U4): a step that serves an illegal command is a fault of the run.
The machine itself answers and carries on (log 4). -/
def faultReading (s : State) : Host.Outcome State Fault Refusal :=
  match s.nextMove with
  | .respond c => if legal c.op then step s else .fault (.illegalCommand c.op)
  | .reset => step s
  | .accept _ => step s
  | .idle => step s

/-- The machine under that reading. -/
def faultCore : Host.Core := { core with step := faultReading }

/-- The range reducer passes `x` through (spec/41_range_reducer.md R111): the quotient and its parts are 0, the leading
remainder is `x` itself (`+0` for either zero), the trailing remainder a zero of the sign opposite to `Nf`, which is `x`'s. -/
structure PassesThrough {f : Fmt} (rom : Rom f) (x : Bits f) : Prop where
  quotient : fzero (rangeReducer rom x).nf = true ∧ sign (rangeReducer rom x).nf = sign x
  integers : (rangeReducer rom x).n = 0 ∧ (rangeReducer rom x).m = 0 ∧ (rangeReducer rom x).n2 = 0
  direct : (rangeReducer rom x).big = false
  leading : (rangeReducer rom x).r1 = if fzero x then f.pzero else x
  trailing : (rangeReducer rom x).r2 = if sign (rangeReducer rom x).nf then f.pzero else f.signBit

/-- The thresholds of a ROM are admissible (R25 item 4), as a hypothesis of claims. -/
abbrev ThresholdsOk {f : Fmt} (rom : Rom f) : Prop := thresholdsAdmissible rom = true

end Sys2Proof.Safety
end

