-- ==== Sys2Proof/Certificates/Slice0/Obligations.lean ====
section
/-! DEFINITION. The statements about the model that the provers are asked for. Each docstring names the rules of spec/ it rests on. -/

open Sys2Proof Sys2Proof.Machine Sys2Proof.Safety

/-! ### Encoding -/

/-- The five rows of the opcode map (R58): the word, the mnemonic, the format, the lane count, the operand bits used. -/
def Obligations.OperationWordsDecode : Prop :=
  ∀ vs : Vec,
    (decode ⟨0b0000, vs⟩ = .vexpS4 vs ∧ (Instr.vexpS4 vs).mnemonic = "VEXP.S4" ∧
      opFormat 0b0000 = .binary32 ∧ opLanes 0b0000 = 4 ∧ Fmt.w .binary32 * 4 = 128) ∧
    (decode ⟨0b0001, vs⟩ = .vexpS8 vs ∧ (Instr.vexpS8 vs).mnemonic = "VEXP.S8" ∧
      opFormat 0b0001 = .binary32 ∧ opLanes 0b0001 = 8 ∧ Fmt.w .binary32 * 8 = 256) ∧
    (decode ⟨0b0010, vs⟩ = .vexpS16 vs ∧ (Instr.vexpS16 vs).mnemonic = "VEXP.S16" ∧
      opFormat 0b0010 = .binary32 ∧ opLanes 0b0010 = 16 ∧ Fmt.w .binary32 * 16 = 512) ∧
    (decode ⟨0b0100, vs⟩ = .vexpD4 vs ∧ (Instr.vexpD4 vs).mnemonic = "VEXP.D4" ∧
      opFormat 0b0100 = .binary64 ∧ opLanes 0b0100 = 4 ∧ Fmt.w .binary64 * 4 = 256) ∧
    (decode ⟨0b0101, vs⟩ = .vexpD8 vs ∧ (Instr.vexpD8 vs).mnemonic = "VEXP.D8" ∧
      opFormat 0b0101 = .binary64 ∧ opLanes 0b0101 = 8 ∧ Fmt.w .binary64 * 8 = 512)

/-- Which words are illegal, that they are accepted like any other, and that each is answered by `IllegalCommand` (R59). -/
def Obligations.IllegalWordsAcceptedAndAnswered : Prop :=
  (∀ op : CmdWord, legal op = false ↔
    op ∈ [0b0011, 0b0110, 0b0111, 0b1000, 0b1001, 0b1010, 0b1011, 0b1100, 0b1101, 0b1110, 0b1111]) ∧
  (∀ op : CmdWord, legal op = true ↔
    op.getLsbD 3 = false ∧ op.extractLsb' 0 2 ≠ 3 ∧ ¬(op.getLsbD 2 = true ∧ op.extractLsb' 0 2 = 2)) ∧
  (∀ s : State, s.portIn.rstN = true → s.portIn.cmdValid = true → s.q.length < s.cfg.qdepth →
    ∃ t, step s = .next t ∧ t.q = s.q ++ [⟨s.portIn.cmdOp, s.portIn.cmdVs⟩]) ∧
  (∀ (s : State) (c : Command), s.nextMove = .respond c → legal c.op = false →
    ∃ t, step s = .next t ∧ t.q = s.q.tail ∧ t.rsp = some ⟨0, true⟩ ∧ t.out = s.out ++ [⟨0, true⟩])

/-- Decoding is total on the sixteen words, five to an operation and eleven to an illegal row, no bit of a command is lost,
and the operand is never looked at (R61). -/
def Obligations.EveryCommandIsOneInstruction : Prop :=
  ∀ c : Command,
    (decode c).wf = true ∧ encode (decode c) = c ∧
    (legal c.op = true →
      decode c ∈ [.vexpS4 c.vs, .vexpS8 c.vs, .vexpS16 c.vs, .vexpD4 c.vs, .vexpD8 c.vs]) ∧
    (legal c.op = false →
      decode c ∈ [.illegalVl3S c.vs, .illegalD16 c.vs, .illegalVl3D c.vs, .illegalAlg1 c.op c.vs]) ∧
    ∀ vs' : Vec, (decode ⟨c.op, vs'⟩).mnemonic = (decode c).mnemonic

/-- Decode and encode agree on every well-formed instruction, every operand at every value (R55, R61). -/
def Obligations.DecodeOfEncodeIsIdentity : Prop := ∀ i : Instr, i.wf = true → decode (encode i) = i

/-- Every word of the sixteen lies in exactly one row of the opcode table, the row of the instruction it decodes to (R58, R59). -/
def Obligations.OpcodeTableUnambiguous : Prop :=
  ∀ c : Command, (opcodeTable.filter fun r => r.holds c.op).map (fun r => r.mnemonic) = [(decode c).mnemonic]

/-! ### The instructions: each completes, with its result and its frame -/

/-- `VEXP.S4` (R191): the command word, the next state, every lane, the zero bits, the ignored bits, the worked example.
The frame is the record: only the response port and the delivered responses change. -/
def Obligations.VexpS4Completes : Prop :=
  ∀ (vs : Vec) (s : State), encode (.vexpS4 vs) = ⟨0b0000, vs⟩ ∧ ∃ vd : Vec,
    exec (.vexpS4 vs) s = .next { s with rsp := some ⟨vd, false⟩, out := s.out ++ [⟨vd, false⟩] } ∧
    (∀ i < 4, lane .binary32 i vd = expLane s.cfg.rom32 (lane .binary32 i vs)) ∧
    vd.extractLsb' 128 384 = 0 ∧
    (∀ vs' : Vec, vs'.extractLsb' 0 128 = vs.extractLsb' 0 128 → exec (.vexpS4 vs') s = exec (.vexpS4 vs) s) ∧
    (s.cfg.rom32 = referenceRom32 → vs.extractLsb' 0 128 = 0x7FC00001FF8000003F80000000000000 →
      vd = 0x7FC0000100000000402DF8543F800000)

/-- `VEXP.S8` (R192), as `VEXP.S4`. -/
def Obligations.VexpS8Completes : Prop :=
  ∀ (vs : Vec) (s : State), encode (.vexpS8 vs) = ⟨0b0001, vs⟩ ∧ ∃ vd : Vec,
    exec (.vexpS8 vs) s = .next { s with rsp := some ⟨vd, false⟩, out := s.out ++ [⟨vd, false⟩] } ∧
    (∀ i < 8, lane .binary32 i vd = expLane s.cfg.rom32 (lane .binary32 i vs)) ∧
    vd.extractLsb' 256 256 = 0 ∧
    (∀ vs' : Vec, vs'.extractLsb' 0 256 = vs.extractLsb' 0 256 → exec (.vexpS8 vs') s = exec (.vexpS8 vs) s) ∧
    (s.cfg.rom32 = referenceRom32 →
      vs.extractLsb' 0 256 = 0xBF0000003F000000C2CE000042B166667FC00001FF8000003F80000000000000 →
      vd = 0x3F1B45983FD3094C000000007F7A37FC7FC0000100000000402DF8543F800000)

/-- `VEXP.S16` (R193): all of the operand is used, so no bit is ignored and none of the result is forced to zero. -/
def Obligations.VexpS16Completes : Prop :=
  ∀ (vs : Vec) (s : State), encode (.vexpS16 vs) = ⟨0b0010, vs⟩ ∧ ∃ vd : Vec,
    exec (.vexpS16 vs) s = .next { s with rsp := some ⟨vd, false⟩, out := s.out ++ [⟨vd, false⟩] } ∧
    (∀ i < 16, lane .binary32 i vd = expLane s.cfg.rom32 (lane .binary32 i vs)) ∧
    (s.cfg.rom32 = referenceRom32 →
      vs = 0x7F80000080000000C2B17218C2B1721742B1721842B17217C1A0000041A00000BF0000003F000000C2CE000042B166667FC00001FF8000003F80000000000000 →
      vd = 0x7F8000003F80000000000000002000107F8000007F7FFF84310DA4334DE758443F1B45983FD3094C000000007F7A37FC7FC0000100000000402DF8543F800000)

/-- `VEXP.D4` (R194), as `VEXP.S4`. -/
def Obligations.VexpD4Completes : Prop :=
  ∀ (vs : Vec) (s : State), encode (.vexpD4 vs) = ⟨0b0100, vs⟩ ∧ ∃ vd : Vec,
    exec (.vexpD4 vs) s = .next { s with rsp := some ⟨vd, false⟩, out := s.out ++ [⟨vd, false⟩] } ∧
    (∀ i < 4, lane .binary64 i vd = expLane s.cfg.rom64 (lane .binary64 i vs)) ∧
    vd.extractLsb' 256 256 = 0 ∧
    (∀ vs' : Vec, vs'.extractLsb' 0 256 = vs.extractLsb' 0 256 → exec (.vexpD4 vs') s = exec (.vexpD4 vs) s) ∧
    (s.cfg.rom64 = referenceRom64 →
      vs.extractLsb' 0 256 = 0xFFF00000000000007FF000000000000000000000000000003FF0000000000000 →
      vd = 0x00000000000000007FF00000000000003FF00000000000004005BF0A8B145769)

/-- `VEXP.D8` (R195), as `VEXP.S16`. -/
def Obligations.VexpD8Completes : Prop :=
  ∀ (vs : Vec) (s : State), encode (.vexpD8 vs) = ⟨0b0101, vs⟩ ∧ ∃ vd : Vec,
    exec (.vexpD8 vs) s = .next { s with rsp := some ⟨vd, false⟩, out := s.out ++ [⟨vd, false⟩] } ∧
    (∀ i < 8, lane .binary64 i vd = expLane s.cfg.rom64 (lane .binary64 i vs)) ∧
    (s.cfg.rom64 = referenceRom64 →
      vs = 0xC0863000000000004086300000000000FFF8000000000123C08624000000000040862E3D70A3D70ABFE00000000000003FE00000000000003FF0000000000000 →
      vd = 0x00000000000000007FF0000000000000FFF8000000000123000E6CF6D08897AC7FEFE9CE5C4C52B43FE368B2FC6F960A3FFA61298E1E069C4005BF0A8B145769)

/-- The four rows of illegal words complete: each answers the `IllegalCommand` response and changes nothing else (R59, R212).
The entry of the exception is these instructions' own effect. -/
def Obligations.IllegalRowsComplete : Prop :=
  ∀ (op : CmdWord) (vs : Vec) (s : State),
    exec (.illegalVl3S vs) s = .next { s with rsp := some ⟨0, true⟩, out := s.out ++ [⟨0, true⟩] } ∧
    exec (.illegalD16 vs) s = .next { s with rsp := some ⟨0, true⟩, out := s.out ++ [⟨0, true⟩] } ∧
    exec (.illegalVl3D vs) s = .next { s with rsp := some ⟨0, true⟩, out := s.out ++ [⟨0, true⟩] } ∧
    exec (.illegalAlg1 op vs) s = .next { s with rsp := some ⟨0, true⟩, out := s.out ++ [⟨0, true⟩] }

/-- `IllegalCommand` at the level of a step (R212): raised when the served word fails `legal`; precise, with no other effect;
the operand not looked at; and a fault of the run under the spec's fault reading (log 4). -/
def Obligations.IllegalCommandIsPrecise : Prop :=
  ∀ (s : State) (c : Command), s.nextMove = .respond c → legal c.op = false →
    step s = .next { s with q := s.q.tail, host := s.hostAfterTurn, rsp := some ⟨0, true⟩, out := s.out ++ [⟨0, true⟩] } ∧
    (∀ vs' : Vec, step { s with q := ⟨c.op, vs'⟩ :: s.q.tail } = step s) ∧
    faultReading s = .fault (.illegalCommand c.op)

/-! ### The step -/

/-- A step runs the decoded instruction: with no reset asserted, nothing acceptable presented, and the encoding of a
well-formed instruction at the head of the queue, the step is `exec` of that instruction once the command has left the queue
and the host's clock edge has passed (R34, R35). -/
def Obligations.StepRunsTheHeadCommand : Prop :=
  ∀ (s : State) (i : Instr) (rest : List Command), i.wf = true → s.q = encode i :: rest →
    s.portIn.rstN = true → (s.portIn.cmdValid = true → s.cfg.qdepth ≤ s.q.length) →
    step s = exec i { s with q := rest, host := if s.portIn.cmdValid then s.host else s.host.tail }

/-- The two steps of the machine (R35), and what the output ports show (R33): with no reset asserted, `cmd_ready` is whether
`Q` has room, and a step is an `accept` into a queue with room, a `respond` that takes the head, emits its response in order and
shows it on the response port, or, when the kernel has nothing to do (log 8), changes neither queue nor responses.
`rsp_valid` is 1 exactly after a `respond`; what the other two ports show otherwise is free (log 3). -/
def Obligations.StepIsAcceptOrRespond : Prop :=
  ∀ s : State, s.portIn.rstN = true → s.cmdReady = decide (s.q.length < s.cfg.qdepth) ∧ ∃ t, step s = .next t ∧
    ((s.q.length < s.cfg.qdepth ∧ s.portIn.cmdValid = true ∧ t.out = s.out ∧ t.rspValid = false ∧
        t.q = s.q ++ [⟨s.portIn.cmdOp, s.portIn.cmdVs⟩] ∧ t.host = s.host.tail) ∨
      (∃ c rest, s.q = c :: rest ∧ t.q = rest ∧ t.out = s.out ++ [answer s.cfg c] ∧ t.rspValid = true ∧
        t.rspVd = (answer s.cfg c).vd ∧ t.rspIllegal = (answer s.cfg c).illegal) ∨
      (s.q = [] ∧ t.q = [] ∧ t.rspValid = false ∧ t.out = s.out))

/-- A command presented while `cmd_ready` is 0 is not accepted, has no effect, and is presented again (R234). -/
def Obligations.PresentedWhileFullIsHeld : Prop :=
  ∀ s : State, s.portIn.rstN = true → s.portIn.cmdValid = true → s.cfg.qdepth ≤ s.q.length →
    s.cmdReady = false ∧ ∃ t, step s = .next t ∧ t.host = s.host ∧ t.q = s.q.tail ∧
      step s = step { s with host := PortIn.idle :: s.host }

/-- Reset (R230): in a cycle with `rst_n` 0 the queue is emptied, `cmd_ready` and `rsp_valid` are 0 and the ROM is kept; in the
first cycle after, `cmd_ready` is 1 and `rsp_valid` is 0. The model's choices, named as such: the edge uses up what the host
presents on it (log 17), the record of delivered responses is kept (log 14), and the free port values are drawn anew (log 3).
The record says that nothing else changes. -/
def Obligations.ResetEmptiesTheQueue : Prop :=
  ∀ s : State, s.portIn.rstN = false → s.cmdReady = false ∧ ∃ t,
    step s = .next t ∧ t = { s with q := [], rsp := none, host := s.host.tail, draws := s.draws + 1 } ∧
    t.rspValid = false ∧ (t.portIn.rstN = true → 1 ≤ t.cfg.qdepth → t.cmdReady = true)

/-- Commands in flight at reset get no response, and a command presented after it gets the response it would have got at any
other time (R231, R232). A command presented on the reset edge itself counts as not presented: that the edge uses it up is the
model's choice (log 17). -/
def Obligations.ResetDiscardsCommandsInFlight : Prop :=
  ∀ (s t : State) (n : Nat), s.portIn.rstN = false → noReset s.host.tail = true →
    Host.Core.run core (n + 1) s = .next t → drained t →
    t.out = s.out ++ (presented s.host.tail).map (answer s.cfg)

/-- The state after reset (R36): the queue empty, `cmd_ready` 1, `rsp_valid` 0. The ROM contents there are the reference image,
the model's choice of instance (log 1). -/
def Obligations.ResetStateAsSpecified : Prop :=
  State.reset.q = [] ∧ State.reset.cmdReady = true ∧ State.reset.rspValid = false ∧ State.reset.out = [] ∧
    State.reset.cfg.rom32 = referenceRom32 ∧ State.reset.cfg.rom64 = referenceRom64

/-- No step stops: no operand value and no command word does more than emit a response (R210; log 4 for the illegal words). -/
def Obligations.NoStepStops : Prop :=
  (∀ s : State, ∃ t, step s = .next t) ∧
    ∀ (i : Instr) (s : State), ∃ r, exec i s = .next { s with rsp := some r, out := s.out ++ [r] }

/-- The response depends on the command and the ROM of its own format, on nothing else in the state (R20, R40, R198). -/
def Obligations.ResponseDependsOnCommandAndItsRom : Prop :=
  ∀ (s₁ s₂ : State) (c : Command), s₁.nextMove = .respond c → s₂.nextMove = .respond c →
    s₁.cfg.rom (opFormat c.op) = s₂.cfg.rom (opFormat c.op) →
    ∃ r t₁ t₂, step s₁ = .next t₁ ∧ step s₂ = .next t₂ ∧ t₁.rsp = some r ∧ t₂.rsp = some r ∧
      t₁.out = s₁.out ++ [r] ∧ t₂.out = s₂.out ++ [r]

/-- `cmd_op` and `cmd_vs` are sampled only when a command is presented, and never during reset (R33; U11). -/
def Obligations.OperandPortsIgnoredWhenIdle : Prop :=
  ∀ (s : State) (p : PortIn) (rest : List PortIn) (op : CmdWord) (vs : Vec),
    p.rstN = false ∨ p.cmdValid = false →
    step { s with host := { p with cmdOp := op, cmdVs := vs } :: rest } = step { s with host := p :: rest }

/-! ### Invariants and runs -/

/-- The invariant holds after reset (R34, R36). -/
def Obligations.InvariantAtReset : Prop := Inv State.reset

/-- Every step keeps the invariant: the queue within `QDEPTH` (R34), the port showing the last delivered response (R33),
illegal responses carrying zero (R212). -/
def Obligations.StepKeepsInvariant : Prop := ∀ s t : State, Inv s → step s = .next t → Inv t

/-- No step writes the configuration: every entry of both ROM spaces reads as before (R46, R54). -/
def Obligations.RomNeverWritten : Prop :=
  ∀ s t : State, step s = .next t →
    t.cfg = s.cfg ∧ ∀ (f : Fmt) (idx : Nat), romEntry (t.cfg.rom f) idx = romEntry (s.cfg.rom f) idx

/-- What a reset-free run delivers does not depend on how the host's edges and the kernel's turns interleave: a step without
reset never changes what is owed, so no run does, and once drained what is owed is exactly what was delivered, in order, one
response per command (R66, R235, R236). -/
def Obligations.ResponsesInOrderForEverySchedule : Prop :=
  (∀ s t : State, s.portIn.rstN = true → step s = .next t → owed t = owed s) ∧
  ∀ (n : Nat) (s t : State), noReset s.host = true → Host.Core.run core n s = .next t →
    owed t = owed s ∧ (drained t → t.out = s.out ++ (s.q ++ presented s.host).map (answer s.cfg))

/-- Every queued and presented command is answered, in order, within a bounded number of steps (R35, R238; a step is a move of
the model, not a clock cycle, log 7). -/
def Obligations.EveryCommandIsAnswered : Prop :=
  ∀ s : State, 1 ≤ s.cfg.qdepth → noReset s.host = true →
    ∃ n ≤ 2 * s.host.length + s.q.length, ∃ t, Host.Core.run core n s = .next t ∧ t.q = [] ∧ t.host = [] ∧
      t.out = s.out ++ (s.q ++ presented s.host).map (answer s.cfg)

/-- The spec's fault reading and the machine agree on every run without an illegal word, and on an illegal word the fault
reading stops where the machine answers (R212; log 4). -/
def Obligations.FaultReadingAgreesOnLegalRuns : Prop :=
  (∀ (n : Nat) (s : State), allLegal s = true →
    (Host.Core.run faultCore n s : Host.Outcome State Fault Refusal) = Host.Core.run core n s) ∧
  ∀ (s : State) (c : Command), s.nextMove = .respond c → legal c.op = false →
    faultReading s = .fault (.illegalCommand c.op) ∧ ∃ t, step s = .next t

/-! ### Lanes -/

/-- Lane `i` of a result depends on lane `i` of the operand, the format and the ROM: not on another lane and not on the lane
count (R196). -/
def Obligations.LaneDependsOnlyOnItself : Prop :=
  ∀ (f : Fmt) (rom : Rom f) (W W' i : Nat) (vs vs' : Vec), i < W → i < W' → f.w * W ≤ 512 → f.w * W' ≤ 512 →
    lane f i vs = lane f i vs' → lane f i (vexp rom W vs) = lane f i (vexp rom W' vs')

/-- Cross-width consistency (R197), bit for bit: a wide operation is its narrow halves side by side. -/
def Obligations.CrossWidthConsistency : Prop :=
  (∀ (rom : Rom .binary32) (vs : Vec), vexp rom 8 vs = vexp rom 4 vs ||| (vexp rom 4 (vs >>> 128) <<< 128)) ∧
  (∀ (rom : Rom .binary32) (vs : Vec), vexp rom 16 vs = vexp rom 8 vs ||| (vexp rom 8 (vs >>> 256) <<< 256)) ∧
  (∀ (rom : Rom .binary64) (vs : Vec), vexp rom 8 vs = vexp rom 4 vs ||| (vexp rom 4 (vs >>> 256) <<< 256))

/-! ### The classifier -/

/-- A NaN of any sign, kind and payload is forwarded bit for bit, for every ROM (R174, R176). -/
def Obligations.NanForwardedBitForBit : Prop :=
  (∀ (f : Fmt) (x : Bits f), maskNan x = true ↔ expField x = f.expAllOnes ∧ fracField x ≠ 0) ∧
  (∀ (f : Fmt) (rom : Rom f) (x : Bits f), maskNan x = true → expLane rom x = x) ∧
  maskNan (0x7FC00000 : Bits .binary32) = true ∧ maskNan (0x7F800001 : Bits .binary32) = true ∧
  maskNan (0xFFFFFFFF : Bits .binary32) = true ∧ maskNan (0x7F800000 : Bits .binary32) = false ∧
  maskNan (0xFF800000 : Bits .binary32) = false

/-- The output by class of `x` (R178), for every ROM with admissible thresholds and whatever the pipeline made (`r1`); `val`
counts both sides of a comparison in the same unit. The masks are listed NaN, +∞, zero, small. The small class is decided by
`THRESHOLD_2` alone, also for a subnormal, which the table's row lists without condition (log 19). -/
def Obligations.OutputByClass : Prop :=
  ∀ (f : Fmt) (rom : Rom f) (x r1 : Bits f), ThresholdsOk rom →
    let masks := (maskNan x, maskPinf rom x, maskZero rom x, maskSmall rom x)
    let y := classifyBlend rom x r1
    expLane rom x = classifyBlend rom x (unclassified rom x) ∧
    (fnan x = true → masks = (true, false, false, false) ∧ y = x) ∧
    (x = f.pinf → masks = (false, true, false, false) ∧ y = f.pinf) ∧
    (finite x = true → val rom.threshold1 < val x → masks = (false, true, false, false) ∧ y = f.pinf) ∧
    (x = f.ninf → masks = (false, false, true, false) ∧ y = f.pzero) ∧
    (finite x = true → val x < -val rom.threshold1 → masks = (false, false, true, false) ∧ y = f.pzero) ∧
    (finite x = true → |val x| < val rom.threshold2 → masks = (false, false, false, true) ∧ y = fadd f.one x ∧
      (rom.threshold2 = (referenceRom f).threshold2 → y = f.one)) ∧
    (finite x = true → val rom.threshold2 ≤ |val x| → |val x| ≤ val rom.threshold1 →
      masks = (false, false, false, false) ∧ y = r1)

/-- The four masks exclude one another for admissible thresholds, so the order of the first three overrides cannot be seen
(R177). -/
def Obligations.MasksExcludeOneAnother : Prop :=
  ∀ (f : Fmt) (rom : Rom f) (x r1 : Bits f), ThresholdsOk rom →
    ¬(maskNan x = true ∧ maskPinf rom x = true) ∧ ¬(maskNan x = true ∧ maskZero rom x = true) ∧
    ¬(maskNan x = true ∧ maskSmall rom x = true) ∧ ¬(maskPinf rom x = true ∧ maskZero rom x = true) ∧
    ¬(maskPinf rom x = true ∧ maskSmall rom x = true) ∧ ¬(maskZero rom x = true ∧ maskSmall rom x = true) ∧
    ∀ l : List (Bool × Bits f),
      l.Perm [(maskSmall rom x, linear x), (maskPinf rom x, f.pinf), (maskZero rom x, f.pzero)] →
      select (maskNan x) x (l.foldl (fun y o => select o.1 o.2 y) r1) = classifyBlend rom x r1

/-- Both zeros, and every subnormal below `THRESHOLD_2`, give exactly 1 for every ROM with admissible thresholds
(R175, R180, R199). -/
def Obligations.ZeroAndSubnormalGiveOne : Prop :=
  ∀ (f : Fmt) (rom : Rom f), ThresholdsOk rom →
    expLane rom f.pzero = f.one ∧ expLane rom f.signBit = f.one ∧
    ∀ x : Bits f, expField x = 0 → |val x| < val rom.threshold2 → expLane rom x = f.one

/-! ### The pipeline -/

/-- The split of `N` (R104) and the exponent quotient (R105). -/
def Obligations.QuotientSplit : Prop :=
  ∀ (f : Fmt) (n : IntT f),
    0 ≤ (tableIndex n).toInt ∧ (tableIndex n).toInt ≤ 31 ∧
    (multipleOf32 n).toInt = n.toInt - (tableIndex n).toInt ∧ (32 : Int) ∣ (multipleOf32 n).toInt ∧
    32 * (exponentQuotient n).toInt = (multipleOf32 n).toInt ∧
    n.toInt = 32 * (exponentQuotient n).toInt + (tableIndex n).toInt ∧
    (exponentQuotient n).toInt = ⌊(n.toInt : ℚ) / 32⌋ ∧
    -(2 ^ (f.w - 6) : Int) ≤ (exponentQuotient n).toInt ∧ (exponentQuotient n).toInt < (2 ^ (f.w - 6) : Int)

/-- The biased exponent never wraps (R152), and the exponent encoded is never above the largest of a finite pattern; the
doubling is used exactly when `M` is above `emax` (R153). -/
def Obligations.BiasedExponentInRange : Prop :=
  ∀ (f : Fmt) (n : IntT f),
    let m := exponentQuotient n
    (biasedExponent m).toInt = m.toInt + (f.bias : Int) ∧
    (needsDoubling (biasedExponent m) = true ↔ (f.bias : Int) + 1 ≤ m.toInt) ∧
    (encodedExponent (biasedExponent m)).toInt = min (m.toInt + (f.bias : Int)) ((f.expAllOnes : Int) - 1)

/-- `pow2_bits(e)` (R154): an exact power of two wherever one exists, `+0` below, never negative, infinite or NaN. -/
def Obligations.Pow2BitsIsPowerOfTwo : Prop :=
  ∀ (f : Fmt) (e : IntT f), e.toInt ≤ (f.expAllOnes : Int) - 1 →
    sign (pow2Bits e) = false ∧ finite (pow2Bits e) = true ∧
    (1 ≤ e.toInt → expField (pow2Bits e) = e.toInt.toNat ∧ fracField (pow2Bits e) = 0) ∧
    (-((f.shift : Int) - 1) ≤ e.toInt → valRat (pow2Bits e) = (2 : ℚ) ^ (e.toInt - (f.bias : Int))) ∧
    (e.toInt < -((f.shift : Int) - 1) → pow2Bits e = f.pzero)

/-- Scaling by a normal power of two is exact where the product is in the normal range (R155). -/
def Obligations.ScalingIsExactInNormalRange : Prop :=
  ∀ (f : Fmt) (e : IntT f) (p2 : Bits f), 1 ≤ e.toInt → e.toInt ≤ (f.expAllOnes : Int) - 1 → finite p2 = true →
    (2 : ℚ) ^ f.emin ≤ |valRat (pow2Bits e) * valRat p2| →
    |valRat (pow2Bits e) * valRat p2| < (2 : ℚ) ^ ((f.bias : Int) + 1) →
    finite (fmul (pow2Bits e) p2) = true ∧
      valRat (fmul (pow2Bits e) p2) = valRat (pow2Bits e) * valRat p2

/-- The gather (R45, R48): the index is in range for every lane input whatever, NaN and infinity included, and the effective
address in the entry map is `N2` for `S_lead` and `32 + N2` for `S_trail`. -/
def Obligations.GatherReadsTheEntryMap : Prop :=
  ∀ (f : Fmt) (rom : Rom f) (x : Bits f),
    let n2 := (rangeReducer rom x).n2
    n2.toNat < 32 ∧ romEntry rom n2.toNat = some (memReadLead rom n2) ∧
      romEntry rom (32 + n2.toNat) = some (memReadTrail rom n2)

/-- When `N` is 0 the reducer passes the argument through: `R1 = x` bit for bit (`+0` for either zero), `R2` a zero of the sign
opposite to `Nf` (R106, R109), for every ROM whose reduction constants are finite and positive. `N` is 0 for every zero and
subnormal `x` where `INV_L` is at most 64, and under the reference ROM for every `|x|` below `THRESHOLD_2` (R111). -/
def Obligations.ZeroQuotientPassesThrough : Prop :=
  (∀ (f : Fmt) (rom : Rom f) (x : Bits f), finitePositive rom.invL = true → finitePositive rom.l1 = true →
    finitePositive rom.l2 = true → finite x = true → fzero (rangeReducer rom x).nf = true → PassesThrough rom x) ∧
  (∀ (f : Fmt) (rom : Rom f) (x : Bits f), finitePositive rom.invL = true → valRat rom.invL ≤ 64 →
    finitePositive rom.l1 = true → finitePositive rom.l2 = true → expField x = 0 → PassesThrough rom x) ∧
  ∀ (f : Fmt) (x : Bits f), finite x = true → |val x| < val (referenceRom f).threshold2 →
    PassesThrough (referenceRom f) x

/-- The two reduction paths and the trailing remainder. `Nf` is `N` exactly unless the conversion saturates (R103); `N` within
`±511` takes the direct path and any other the split path, for both formats (R108), with the rule's lane where the choice shows;
`R2` is one rounding of `-Nf·L2`, and where `N` is not 0 its sign is opposite to `N`'s (R109). -/
def Obligations.ReductionPathAndRemainders : Prop :=
  (∀ (f : Fmt) (rom : Rom f) (x : Bits f),
    let red := rangeReducer rom x
    (finite red.nf = true → |valRat red.nf| < 2 ^ (f.w - 1) → (red.n.toInt : ℚ) = valRat red.nf) ∧
    (-511 ≤ red.n.toInt → red.n.toInt ≤ 511 → red.big = false ∧ red.r1 = fma (fneg red.nf) rom.l1 x) ∧
    (512 ≤ red.n.toInt ∨ red.n.toInt ≤ -512 → red.big = true ∧
      red.r1 = fma (fneg (i2f (tableIndex red.n))) rom.l1 (fma (fneg (i2f (multipleOf32 red.n))) rom.l1 x)) ∧
    (finitePositive rom.l2 = true → red.n.toInt ≠ 0 → sign red.r2 = decide (0 < red.n.toInt)) ∧
    (finitePositive rom.l2 = true → finite red.nf = true → ∀ m t : Int,
      (m : ℚ) * (2 : ℚ) ^ t = -(valRat red.nf * valRat rom.l2) → red.r2 = roundNE f m t (!sign red.nf))) ∧
  (∀ f : Fmt, isBig (BitVec.ofInt f.w 511 : IntT f) = false ∧ isBig (BitVec.ofInt f.w (-511) : IntT f) = false ∧
    isBig (BitVec.ofInt f.w 512 : IntT f) = true ∧ isBig (BitVec.ofInt f.w (-512) : IntT f) = true ∧
    isBig (BitVec.ofInt f.w (intMin f) : IntT f) = true) ∧
  (rangeReducer referenceRom32 0xBE777671).r1a = 0xBB5E6C40 ∧
  (rangeReducer referenceRom32 0xBE777671).r1b = 0xBB5E6C00 ∧
  (rangeReducer referenceRom32 0xBE777671).r1 = 0xBB5E6C40

/-- A zero residual gives the polynomial value `+0` (R125): with `R1 = +0`, as the reducer makes it for `x = ±0`, and `R2` a zero
of either sign, whatever finite coefficients the ROM holds; with positive coefficients, for zeros of either sign in both. -/
def Obligations.ZeroResidualGivesZeroPolynomial : Prop :=
  ∀ (f : Fmt) (rom : Rom f),
    ((∀ c ∈ rom.a.toList, finite c = true) →
      ∀ r2 : Bits f, fzero r2 = true → (polynomialEval rom f.pzero r2).p = f.pzero) ∧
    ((∀ c ∈ rom.a.toList, finitePositive c = true) →
      ∀ r1 r2 : Bits f, fzero r1 = true → fzero r2 = true → (polynomialEval rom r1 r2).p = f.pzero)

/-- A zero polynomial value, of either sign, makes the compensated product the summed entry (R151), for every entry with both
parts finite and the lead in `[1, 2)`. -/
def Obligations.ZeroPolynomialGivesSummedEntry : Prop :=
  ∀ (f : Fmt) (rom : Rom f) (m n2 : IntT f) (p : Bits f),
    let entry := tableLookup rom n2
    finite entry.sl = true → 1 ≤ valRat entry.sl → valRat entry.sl < 2 → finite entry.st = true → fzero p = true →
    (reconstruct rom m n2 p).p2 = entry.s

/-- The check of an image at `x = THRESHOLD_1` bounds the exponent for every lane input up to it (R25 item 5): an admissible
ROM meets the constraint for every finite `x`. -/
def Obligations.AdmissibleRomBoundsExponent : Prop :=
  ∀ (f : Fmt) (rom : Rom f), romAdmissible rom = true →
    ∀ x : Bits f, finite x = true → |val x| ≤ val rom.threshold1 →
      (rangeReducer rom x).m.toInt ≤ (f.bias : Int) + 1 ∧
      (rangeReducer rom x).n.toInt ≤ 32 * ((f.bias : Int) + 1) + 31

/-- What an image that passes the checks is (R25 items 1 to 4, 6 and 7), in real numbers. Each `≈` is within one part in 1000
(from the checks' one part in 1024 and `ln 2` to nine places), and a run of zero bits is at least one bit: the model's choice
(log 6). -/
def Obligations.AdmissibleRomIsClose : Prop :=
  ∀ (f : Fmt) (rom : Rom f), romAdmissible rom = true →
    let real := fun b : Bits f => ((valRat b : ℚ) : ℝ)
    (∀ k : Fin 32, finite rom.sLead[k] = true ∧ finite rom.sTrail[k] = true ∧ 1 ≤ real rom.sLead[k] ∧
      real rom.sLead[k] < 2 ∧ rom.sLead[k].getLsbD 0 = false ∧
      |real rom.sLead[k] + real rom.sTrail[k] - (2 : ℝ) ^ ((k.val : ℝ) / 32)| ≤ (2 : ℝ) ^ ((k.val : ℝ) / 32) / 1000) ∧
    (finite rom.invL = true ∧ 0 < real rom.invL ∧ |real rom.invL - 32 / Real.log 2| ≤ 32 / Real.log 2 / 1000) ∧
    (finite rom.l1 = true ∧ 0 < real rom.l1 ∧ finite rom.l2 = true ∧ 0 < real rom.l2 ∧ rom.l1.getLsbD 0 = false ∧
      |real rom.l1 + real rom.l2 - Real.log 2 / 32| ≤ Real.log 2 / 32 / 1000) ∧
    (finite rom.threshold1 = true ∧ finite rom.threshold2 = true ∧ 0 < real rom.threshold2 ∧
      real rom.threshold2 < real rom.threshold1) ∧
    (f = .binary32 → 88.7 ≤ real rom.threshold1 ∧ real rom.threshold1 < 103) ∧
    ∀ i : Fin f.na, finite rom.a[i] = true ∧ 0 < real rom.a[i] ∧
      |real rom.a[i] - 1 / ((i.val + 2).factorial : ℝ)| ≤ 1 / ((i.val + 2).factorial : ℝ) / 1000

/-! ### The primitives -/

/-- The class and value of a pattern (R71): exactly one of the five classes, and the value of each finite one. -/
def Obligations.PatternClassAndValue : Prop :=
  ∀ (f : Fmt) (b : Bits f),
    (fnan b = true ↔ expField b = f.expAllOnes ∧ fracField b ≠ 0) ∧
    (fnan b = true → (quietNan b = true ↔ 2 ^ (f.shift - 1) ≤ fracField b)) ∧
    (finf b = true ↔ expField b = f.expAllOnes ∧ fracField b = 0) ∧
    (finf b = true → b = if sign b then f.ninf else f.pinf) ∧
    (finite b = true ↔ expField b < f.expAllOnes) ∧
    (1 ≤ expField b → expField b < f.expAllOnes →
      valRat b = (if sign b then -1 else 1) * (1 + (fracField b : ℚ) / 2 ^ f.shift) *
        (2 : ℚ) ^ ((expField b : Int) - (f.bias : Int))) ∧
    (expField b = 0 → fracField b ≠ 0 →
      valRat b = (if sign b then -1 else 1) * ((fracField b : ℚ) / 2 ^ f.shift) * (2 : ℚ) ^ f.emin) ∧
    (expField b = 0 → fracField b = 0 → valRat b = 0 ∧ b = if sign b then f.signBit else f.pzero)

/-- Rounding a value of the format gives its own pattern, at every scale the value can be written in (R74). -/
def Obligations.RoundingARepresentableValueIsExact : Prop :=
  ∀ (f : Fmt) (b : Bits f) (k : Nat), finite b = true →
    roundNE f (val b * 2 ^ k) (f.unit - (k : Int)) (sign b) = b

/-- `RN_T` is round to nearest, ties to even, with overflow to infinity and the sign kept (R14, R73, R74). -/
def Obligations.RoundsToNearestEven : Prop :=
  ∀ (f : Fmt) (n t : Int) (zs : Bool),
    let q : ℚ := (n : ℚ) * (2 : ℚ) ^ t
    let y := roundNE f n t zs
    fnan y = false ∧
    sign y = (if n = 0 then zs else decide (n < 0)) ∧
    (finf y = true ↔ (2 - (2 : ℚ) ^ (-(f.p : Int))) * (2 : ℚ) ^ (f.bias : Int) ≤ |q|) ∧
    (finite y = true → ∀ b : Bits f, finite b = true →
      |valRat y - q| ≤ |valRat b - q| ∧
      (|valRat b - q| = |valRat y - q| → valRat b ≠ valRat y → fracField y % 2 = 0))

/-- Rounding is monotone (R74). -/
def Obligations.RoundingIsMonotone : Prop :=
  ∀ (f : Fmt) (n₁ n₂ t : Int) (zs₁ zs₂ : Bool), n₁ ≤ n₂ →
    flt (roundNE f n₂ t zs₂) (roundNE f n₁ t zs₁) = false

/-- The order of operands inside a sum, a product and the product of a fused operation cannot be seen (R125). -/
def Obligations.OperandOrderCannotBeSeen : Prop :=
  ∀ (f : Fmt) (a b c : Bits f), fadd a b = fadd b a ∧ fmul a b = fmul b a ∧ fma a b c = fma b a c

/-- The rounded sum (R76): the cases of NaN and infinity, and otherwise one rounding of the exact sum, however that exact sum
is written as `n · 2^t`; exact cancellation gives `+0`. "A sum beyond the largest finite value" is one that rounds beyond it. -/
def Obligations.SumIsExactThenRounded : Prop :=
  (∀ (f : Fmt) (a b : Bits f),
    (fnan a = true ∨ fnan b = true → fadd a b = f.qnan) ∧
    (finf a = true → finf b = true → fadd a b = if sign a = sign b then a else f.qnan) ∧
    (finf a = true → finite b = true → fadd a b = a) ∧ (finite a = true → finf b = true → fadd a b = b) ∧
    (finite a = true → finite b = true →
      (∀ n t : Int, (n : ℚ) * (2 : ℚ) ^ t = valRat a + valRat b → fadd a b = roundNE f n t (sign a && sign b)) ∧
      ((2 - (2 : ℚ) ^ (-(f.p : Int))) * (2 : ℚ) ^ (f.bias : Int) ≤ |valRat a + valRat b| →
        fadd a b = if valRat a + valRat b < 0 then f.ninf else f.pinf)) ∧
    (finite a = true → fadd a (fneg a) = f.pzero)) ∧
  (∀ f : Fmt, fadd f.pzero f.signBit = f.pzero ∧ fadd f.signBit f.signBit = f.signBit) ∧
  fadd (0x3F800000 : Bits .binary32) 0x33800000 = 0x3F800000 ∧
  fadd (0x3F800000 : Bits .binary32) 0x33800001 = 0x3F800001 ∧
  fadd (0x3F800000 : Bits .binary32) 0xB3000001 = 0x3F7FFFFF

/-- The rounded product (R77): the cases of NaN and infinity, and otherwise one rounding of the exact product; a power of two
times a normal value is exact where the product neither overflows nor is subnormal. -/
def Obligations.ProductIsExactThenRounded : Prop :=
  (∀ (f : Fmt) (a b : Bits f),
    (fnan a = true ∨ fnan b = true → fmul a b = f.qnan) ∧
    (finf a = true ∨ finf b = true → fzero a = true ∨ fzero b = true → fmul a b = f.qnan) ∧
    (fnan a = false → fnan b = false → finf a = true ∨ finf b = true → fzero a = false → fzero b = false →
      fmul a b = if sign a = sign b then f.pinf else f.ninf) ∧
    (finite a = true → finite b = true →
      (∀ n t : Int, (n : ℚ) * (2 : ℚ) ^ t = valRat a * valRat b → fmul a b = roundNE f n t (sign a ^^ sign b)) ∧
      (fracField a = 0 → 1 ≤ expField a → 1 ≤ expField b → (2 : ℚ) ^ f.emin ≤ |valRat a * valRat b| →
        |valRat a * valRat b| < (2 : ℚ) ^ ((f.bias : Int) + 1) →
        finite (fmul a b) = true ∧ valRat (fmul a b) = valRat a * valRat b))) ∧
  fmul (0x00800001 : Bits .binary32) 0x3F000000 = 0x00400000 ∧
  fmul (0x7F7FFFFF : Bits .binary32) 0x40000000 = 0x7F800000 ∧
  fmul (0x80000001 : Bits .binary32) 0x3E800000 = 0x80000000

/-- The fused multiply-add (R78): the cases of NaN and infinity, and otherwise one rounding of the exact `a·b + c`; the sign
of an exact zero; `c - a·b` through a negated operand. -/
def Obligations.FusedIsRoundedOnce : Prop :=
  (∀ (f : Fmt) (a b c : Bits f),
    (fnan a = true ∨ fnan b = true ∨ fnan c = true → fma a b c = f.qnan) ∧
    (fnan c = false → finf a = true ∨ finf b = true → fzero a = true ∨ fzero b = true → fma a b c = f.qnan) ∧
    (fnan a = false → fnan b = false → fnan c = false → finf a = true ∨ finf b = true → fzero a = false →
      fzero b = false → fma a b c =
        if finf c = true ∧ sign c ≠ (sign a ^^ sign b) then f.qnan else if sign a = sign b then f.pinf else f.ninf) ∧
    (finite a = true → finite b = true → finf c = true → fma a b c = c) ∧
    (finite a = true → finite b = true → finite c = true →
      let q := valRat a * valRat b + valRat c
      (∀ n t : Int, n ≠ 0 → (n : ℚ) * (2 : ℚ) ^ t = q → fma a b c = roundNE f n t false) ∧
      (q = 0 → fma a b c =
        if valRat a * valRat b = 0 ∧ sign a ≠ sign b ∧ sign c = true then f.signBit else f.pzero) ∧
      ∀ n t : Int, n ≠ 0 → (n : ℚ) * (2 : ℚ) ^ t = valRat c - valRat a * valRat b →
        fma (fneg a) b c = roundNE f n t false)) ∧
  fma (0x3F800800 : Bits .binary32) 0x3F800800 0xBF800000 = 0x3A000400 ∧
  fadd (fmul (0x3F800800 : Bits .binary32) 0x3F800800) 0xBF800000 = 0x3A000000

/-- The rounding primitive `rint` (R81). -/
def Obligations.RintRoundsToIntegral : Prop :=
  ∀ (f : Fmt) (a : Bits f),
    (fnan a = true → rint a = f.qnan) ∧ (finf a = true → rint a = a) ∧
    (finite a = true → finite (rint a) = true ∧ sign (rint a) = sign a ∧
      (∃ k : Int, valRat (rint a) = k ∧ |(k : ℚ) - valRat a| ≤ 1 / 2 ∧
        (|(k : ℚ) - valRat a| = 1 / 2 → (2 : Int) ∣ k)) ∧
      ((2 : ℚ) ^ (f.p - 1) ≤ |valRat a| → rint a = a)) ∧
    rint (0x3FC00000 : Bits .binary32) = 0x40000000 ∧ rint (0x40200000 : Bits .binary32) = 0x40000000 ∧
    rint (0x3F000000 : Bits .binary32) = 0x00000000 ∧ rint (0x3F000001 : Bits .binary32) = 0x3F800000 ∧
    rint (0xBF000000 : Bits .binary32) = 0x80000000

/-- Conversion to an integer (R82): nearest even, saturating, NaN to 0. -/
def Obligations.ConversionToIntegerSaturates : Prop :=
  ∀ (f : Fmt) (a : Bits f),
    (fnan a = true → f2i a = 0) ∧
    (a = f.pinf → (f2i a).toInt = 2 ^ (f.w - 1) - 1) ∧ (a = f.ninf → (f2i a).toInt = -2 ^ (f.w - 1)) ∧
    (finite a = true → ∃ k : Int, |(k : ℚ) - valRat a| ≤ 1 / 2 ∧
      (|(k : ℚ) - valRat a| = 1 / 2 → (2 : Int) ∣ k) ∧
      (f2i a).toInt = min (2 ^ (f.w - 1) - 1) (max (-2 ^ (f.w - 1)) k)) ∧
    (f2i (0xC5800000 : Bits .binary32)).toInt = -4096 ∧ (f2i (0x4F000000 : Bits .binary32)).toInt = 2147483647 ∧
    (f2i (0xCF000000 : Bits .binary32)).toInt = -2147483648 ∧ f2i (0x7FC00000 : Bits .binary32) = 0

/-- Conversion from an integer (R83): one rounding of the integer, exact below `2^p(T)`, zero to `+0`; undone by `f2i` there. -/
def Obligations.ConversionFromIntegerIsExact : Prop :=
  (∀ (f : Fmt) (n : IntT f) (m t : Int), (m : ℚ) * (2 : ℚ) ^ t = (n.toInt : ℚ) → i2f n = roundNE f m t false) ∧
  (∀ (f : Fmt) (n : IntT f), |n.toInt| < 2 ^ f.p →
    finite (i2f n) = true ∧ valRat (i2f n) = (n.toInt : ℚ) ∧ f2i (i2f n) = n) ∧
  (∀ f : Fmt, i2f (0 : IntT f) = f.pzero) ∧
  i2f (f := .binary32) (BitVec.ofInt 32 (-4096)) = 0xC5800000 ∧
  i2f (f := .binary32) 16777217 = 0x4B800000 ∧ i2f (f := .binary32) 16777219 = 0x4B800002

/-- The comparisons (R84): ordered, on exact values, infinities at the ends, false with a NaN; the two zeros equal. -/
def Obligations.ComparisonsFollowValues : Prop :=
  ∀ (f : Fmt) (a b : Bits f),
    (fnan a = true ∨ fnan b = true → flt a b = false ∧ fgt a b = false ∧ feq a b = false) ∧
    fgt a b = flt b a ∧
    (finite a = true → finite b = true →
      (flt a b = true ↔ valRat a < valRat b) ∧ (feq a b = true ↔ valRat a = valRat b)) ∧
    (finite a = true → flt a f.pinf = true ∧ flt f.ninf a = true ∧ flt f.pinf a = false ∧ flt a f.ninf = false ∧
      feq a f.pinf = false ∧ feq a f.ninf = false ∧ feq f.pinf a = false ∧ feq f.ninf a = false) ∧
    flt f.ninf f.pinf = true ∧ flt f.pinf f.ninf = false ∧ flt f.pinf f.pinf = false ∧ flt f.ninf f.ninf = false ∧
    feq f.pinf f.pinf = true ∧ feq f.ninf f.ninf = true ∧ feq f.pinf f.ninf = false ∧ feq f.ninf f.pinf = false ∧
    feq f.pzero f.signBit = true ∧ flt f.pzero f.signBit = false ∧ flt f.signBit f.pzero = false

/-! ### The reference ROM -/

/-- The reference image meets every check of R25, and an image or capacity that fails one is refused before a machine exists
(R25, R233). The tolerance of each `≈` in the checks is the model's choice (log 6), as is the reset configuration (log 1, 2). -/
def Obligations.BootAcceptsExactlyAdmissible : Prop :=
  configAdmissible referenceConfig = true ∧
  ∀ c : Config, (configAdmissible c = true → boot c = .next { State.reset with cfg := c }) ∧
    (configAdmissible c = false → boot c = .refused .notAdmissible)

/-- The properties of the reference tables (R140), with `z` = 7 for binary32 and 6 for binary64 (R139). -/
def Obligations.ReferenceTableProperties : Prop :=
  ∀ (f : Fmt), let z : Int := match f with | .binary32 => 7 | .binary64 => 6
    let lead := fun k : Fin 32 => ((valRat (referenceRom f).sLead[k] : ℚ) : ℝ)
    let trail := fun k : Fin 32 => ((valRat (referenceRom f).sTrail[k] : ℚ) : ℝ)
    (referenceRom f).sLead[(0 : Fin 32)] = f.one ∧ (referenceRom f).sTrail[(0 : Fin 32)] = f.pzero ∧
    (∀ k, 0 ≤ trail k ∧ trail k < (2 : ℝ) ^ (1 - (f.p : Int) + z)) ∧
    (∀ k, 1 ≤ lead k ∧ lead k < 2) ∧
    (∀ j k, j < k → lead j + trail j < lead k + trail k) ∧
    ∀ k : Fin 32, |lead k + trail k - (2 : ℝ) ^ ((k.val : ℝ) / 32)| < (2 : ℝ) ^ (-2 * (f.p : Int) + z + 1)

/-- Reference thresholds (R24): `THRESHOLD_2 = 2^-(p+1)`, and `THRESHOLD_1` is the largest finite value below
`(emax + 1) · ln 2`, in both formats. -/
def Obligations.ReferenceThresholds : Prop :=
  ∀ f : Fmt, valRat (referenceRom f).threshold2 = (2 : ℚ) ^ (-((f.p : Int) + 1)) ∧
    finite (referenceRom f).threshold1 = true ∧
    ((valRat (referenceRom f).threshold1 : ℚ) : ℝ) < ((f.bias : ℝ) + 1) * Real.log 2 ∧
    ∀ b : Bits f, finite b = true → ((valRat b : ℚ) : ℝ) < ((f.bias : ℝ) + 1) * Real.log 2 →
      val b ≤ val (referenceRom f).threshold1

/-- Exactness of the reduction products under the reference ROM (R112): `N1·L1` and `N2·L1`, and `N·L1` for `|N| < 512`, are
values of the format. -/
def Obligations.ReferenceReductionProductsExact : Prop :=
  ∀ (f : Fmt) (n : IntT f), |n.toInt| ≤ (match f with | .binary32 => 4136 | .binary64 => 32808) →
    let exact := fun a : Bits f =>
      valRat (fmul a (referenceRom f).l1) = valRat a * valRat (referenceRom f).l1 ∧
        finite (fmul a (referenceRom f).l1) = true
    exact (i2f (multipleOf32 n)) ∧ exact (i2f (tableIndex n)) ∧ (|n.toInt| < 512 → exact (i2f n))
end

