-- ==== Sys2Proof/Laws/Format.lean ====
section
/-! SUPPORT. Classes and fields of a pattern: the classes exclude one another, the fields determine the pattern. -/

namespace Sys2Proof.Machine

variable {f : Fmt}

/-- Exactly one of NaN, infinity, finite. -/
theorem class_cases (b : Bits f) :
    (fnan b = true ∧ finf b = false ∧ finite b = false) ∨ (fnan b = false ∧ finf b = true ∧ finite b = false) ∨
      (fnan b = false ∧ finf b = false ∧ finite b = true) := by
  unfold fnan finf finite
  by_cases h : expField b = f.expAllOnes <;> by_cases h' : fracField b = 0 <;> simp [h, h']

/-- A finite pattern is not a NaN. -/
theorem fnan_of_finite {b : Bits f} (h : finite b = true) : fnan b = false := by
  rcases class_cases b with ⟨_, _, h'⟩ | ⟨_, _, h'⟩ | ⟨h', _, _⟩ <;> simp_all

/-- A finite pattern is not an infinity. -/
theorem finf_of_finite {b : Bits f} (h : finite b = true) : finf b = false := by
  rcases class_cases b with ⟨_, _, h'⟩ | ⟨_, _, h'⟩ | ⟨_, h', _⟩ <;> simp_all

/-- The exponent field fits its width. -/
theorem expField_lt (b : Bits f) : expField b < 2 ^ f.ebits := by
  unfold expField; exact BitVec.isLt _

/-- The fraction fits its width. -/
theorem fracField_lt (b : Bits f) : fracField b < 2 ^ f.shift := by
  unfold fracField; exact BitVec.isLt _

/-- A pattern as a number: sign, exponent field and fraction side by side (R70). -/
theorem toNat_eq_fields (b : Bits f) :
    b.toNat = (if sign b then 2 ^ (f.w - 1) else 0) + expField b * 2 ^ f.shift + fracField b := by
  have hb := b.isLt
  cases f
  all_goals
    simp only [sign, expField, fracField, Fmt.shift, Fmt.ebits, BitVec.extractLsb'_toNat, BitVec.msb_eq_decide,
      Nat.shiftRight_eq_div_pow, decide_eq_true_eq, Fmt.w] at *
    split <;> omega

/-- The three fields determine the pattern. -/
theorem bits_ext {a b : Bits f} (hs : sign a = sign b) (he : expField a = expField b)
    (hf : fracField a = fracField b) : a = b := by
  apply BitVec.eq_of_toNat_eq
  rw [toNat_eq_fields a, toNat_eq_fields b, hs, he, hf]

/-- `val` through sign and magnitude. -/
theorem val_eq (b : Bits f) : val b = if sign b then -(magnitude b : Int) else (magnitude b : Int) := rfl

/-- The absolute value is the magnitude. -/
@[simp] theorem natAbs_val (b : Bits f) : (val b).natAbs = magnitude b := by
  unfold val; split <;> simp

end Sys2Proof.Machine
end

