-- ==== Sys2Proof/Laws/Operands.lean ====
section
/-! SUPPORT. Reading and writing lanes. -/

namespace Sys2Proof.Machine

/-- A bit of a lane is a bit of the vector. -/
theorem lane_getLsbD (f : Fmt) (i : Nat) (v : Vec) (k : Nat) :
    (lane f i v).getLsbD k = (decide (k < f.w) && v.getLsbD (f.w * i + k)) := by
  simp [lane]

/-- A bit of the vector after a lane is written: the lane's own bits come from the new value, all others stay. -/
theorem writeLane_getLsbD (f : Fmt) (i : Nat) (y : Bits f) (v : Vec) (k : Nat) :
    (writeLane f i y v).getLsbD k =
      (decide (k < 512) && if f.w * i ≤ k ∧ k < f.w * i + f.w then y.getLsbD (k - f.w * i) else v.getLsbD k) := by
  unfold writeLane laneMask
  simp only [BitVec.getLsbD_or, BitVec.getLsbD_and, BitVec.getLsbD_not, BitVec.getLsbD_shiftLeft,
    BitVec.getLsbD_setWidth, BitVec.getLsbD_allOnes]
  by_cases hk : k < 512
  · by_cases h1 : f.w * i ≤ k
    · by_cases h2 : k < f.w * i + f.w
      · have h3 : k - f.w * i < f.w := by omega
        have h4 : k - f.w * i < 512 := by omega
        have h5 : ¬ k < f.w * i := by omega
        simp [hk, h1, h2, h3, h4, h5]
      · have h3 : ¬ k - f.w * i < f.w := by omega
        have h6 : y.getLsbD (k - f.w * i) = false := BitVec.getLsbD_of_ge _ _ (by omega)
        simp [hk, h2, h3, h6]
    · have h5 : k < f.w * i := by omega
      have h6 : ¬ (f.w * i ≤ k ∧ k < f.w * i + f.w) := by omega
      simp [hk, h5, h6]
  · have : v.getLsbD k = false := BitVec.getLsbD_of_ge _ _ (by omega)
    simp [hk]

/-- A lane just written reads back. -/
theorem lane_writeLane_same (f : Fmt) (i : Nat) (y : Bits f) (v : Vec) (h : f.w * (i + 1) ≤ 512) :
    lane f i (writeLane f i y v) = y := by
  apply BitVec.eq_of_getLsbD_eq
  intro k hk
  rw [lane_getLsbD, writeLane_getLsbD]
  have h1 : f.w * i + k < 512 := by
    have : f.w * (i + 1) = f.w * i + f.w := by ring
    omega
  have h2 : f.w * i + k < f.w * i + f.w := by omega
  simp [hk, h1]

/-- Writing one lane leaves every other alone. -/
theorem lane_writeLane_ne (f : Fmt) {i j : Nat} (y : Bits f) (v : Vec) (hij : i ≠ j) (h : f.w * (i + 1) ≤ 512) :
    lane f i (writeLane f j y v) = lane f i v := by
  apply BitVec.eq_of_getLsbD_eq
  intro k hk
  rw [lane_getLsbD, writeLane_getLsbD, lane_getLsbD]
  have e1 : f.w * (i + 1) = f.w * i + f.w := by ring
  have h1 : f.w * i + k < 512 := by omega
  have h2 : ¬ (f.w * j ≤ f.w * i + k ∧ f.w * i + k < f.w * j + f.w) := by
    rintro ⟨ha, hb⟩
    rcases Nat.lt_or_gt_of_ne hij with hlt | hgt
    · have : f.w * (i + 1) ≤ f.w * j := Nat.mul_le_mul_left _ hlt
      omega
    · have : f.w * (j + 1) ≤ f.w * i := Nat.mul_le_mul_left _ hgt
      have e2 : f.w * (j + 1) = f.w * j + f.w := by ring
      omega
  simp [hk, h1, h2]

/-- Each lane of the result is the lane function of the operand's lane. -/
theorem lane_mapLanes (f : Fmt) (g : Bits f → Bits f) (vs : Vec) {i n : Nat} (hi : i < n) (h : f.w * n ≤ 512) :
    lane f i (mapLanes f g vs n) = g (lane f i vs) := by
  induction n with
  | zero => omega
  | succ n ih =>
    have hfit : f.w * (i + 1) ≤ 512 := le_trans (Nat.mul_le_mul_left _ hi) h
    have hn : f.w * n ≤ 512 := le_trans (Nat.mul_le_mul_left _ (Nat.le_succ n)) h
    by_cases hin : i = n
    · subst hin
      exact lane_writeLane_same f i _ _ hfit
    · rw [mapLanes, lane_writeLane_ne f _ _ hin hfit]
      exact ih (by omega) hn

/-- Above the lanes the result is zero. -/
theorem mapLanes_getLsbD_high (f : Fmt) (g : Bits f → Bits f) (vs : Vec) (n k : Nat) (hk : f.w * n ≤ k) :
    (mapLanes f g vs n).getLsbD k = false := by
  induction n with
  | zero => simp [mapLanes]
  | succ n ih =>
    have e1 : f.w * (n + 1) = f.w * n + f.w := by ring
    rw [mapLanes, writeLane_getLsbD, ih (by omega)]
    have : ¬ (f.w * n ≤ k ∧ k < f.w * n + f.w) := by omega
    simp [this]

/-- The result depends on the operand's lanes only. -/
theorem mapLanes_congr (f : Fmt) (g : Bits f → Bits f) (vs vs' : Vec) (n : Nat)
    (h : ∀ i < n, lane f i vs = lane f i vs') : mapLanes f g vs n = mapLanes f g vs' n := by
  induction n with
  | zero => rfl
  | succ n ih =>
    rw [mapLanes, mapLanes, h n (Nat.lt_succ_self n), ih fun i hi => h i (Nat.lt_succ_of_lt hi)]

end Sys2Proof.Machine
end

