-- ==== Sys2Proof/Laws/PerInstr.lean ====
section
/-! SUPPORT. A per-instruction family: the word an instruction is encoded to belongs to that instruction's row of the opcode table. -/

namespace Sys2Proof.Laws.TableRow

/-- The encoded word has the fixed bits of the row whose mnemonic is the instruction's. -/
def Statement (i : Instr) : Prop :=
  i.wf = true → ∃ r ∈ opcodeTable, r.mnemonic = i.mnemonic ∧ r.holds (encode i).op = true

theorem vexpS4 (vs : Vec) : Statement (.vexpS4 vs) := fun _ => ⟨⟨"VEXP.S4", 0xF, 0b0000⟩, by decide, rfl, by simp [OpcodeRow.holds, encode]⟩

theorem vexpS8 (vs : Vec) : Statement (.vexpS8 vs) := fun _ => ⟨⟨"VEXP.S8", 0xF, 0b0001⟩, by decide, rfl, by simp [OpcodeRow.holds, encode]⟩

theorem vexpS16 (vs : Vec) : Statement (.vexpS16 vs) := fun _ => ⟨⟨"VEXP.S16", 0xF, 0b0010⟩, by decide, rfl, by simp [OpcodeRow.holds, encode]⟩

theorem vexpD4 (vs : Vec) : Statement (.vexpD4 vs) := fun _ => ⟨⟨"VEXP.D4", 0xF, 0b0100⟩, by decide, rfl, by simp [OpcodeRow.holds, encode]⟩

theorem vexpD8 (vs : Vec) : Statement (.vexpD8 vs) := fun _ => ⟨⟨"VEXP.D8", 0xF, 0b0101⟩, by decide, rfl, by simp [OpcodeRow.holds, encode]⟩

theorem illegalVl3S (vs : Vec) : Statement (.illegalVl3S vs) :=
  fun _ => ⟨⟨"ILLEGAL.vl3.S", 0xF, 0b0011⟩, by decide, rfl, by simp [OpcodeRow.holds, encode]⟩

theorem illegalD16 (vs : Vec) : Statement (.illegalD16 vs) :=
  fun _ => ⟨⟨"ILLEGAL.D16", 0xF, 0b0110⟩, by decide, rfl, by simp [OpcodeRow.holds, encode]⟩

theorem illegalVl3D (vs : Vec) : Statement (.illegalVl3D vs) :=
  fun _ => ⟨⟨"ILLEGAL.vl3.D", 0xF, 0b0111⟩, by decide, rfl, by simp [OpcodeRow.holds, encode]⟩

theorem illegalAlg1 (op : CmdWord) (vs : Vec) : Statement (.illegalAlg1 op vs) := by
  intro h
  refine ⟨⟨"ILLEGAL.alg1", 0x8, 0b1000⟩, by decide, rfl, ?_⟩
  revert h
  simp only [Instr.wf, encode, OpcodeRow.holds]
  revert op
  decide

end Sys2Proof.Laws.TableRow
end

