-- ==== Sys2Proof/Laws/Rounding.lean ====
section
/-! SUPPORT. The rounding step shared by every rounded primitive. -/

namespace Sys2Proof.Machine

/-- Nothing is rounded when the divisor is at most one. -/
theorem nearestEven_nonpos (a : Nat) {j : Int} (h : j ≤ 0) : nearestEven a j = a * 2 ^ (-j).toNat := by
  simp [nearestEven, h]

/-- The quotient is one of the two neighbours: the floor or the floor plus one. -/
theorem nearestEven_cases (a : Nat) {j : Int} (h : 0 < j) :
    nearestEven a j = a / 2 ^ j.toNat ∨ nearestEven a j = a / 2 ^ j.toNat + 1 := by
  have : ¬ j ≤ 0 := by omega
  simp only [nearestEven, this, if_false]
  split <;> simp

/-- The rounding error is at most half a unit. -/
theorem nearestEven_error (a : Nat) {j : Int} (h : 0 < j) :
    2 * a ≤ 2 * (nearestEven a j * 2 ^ j.toNat) + 2 ^ j.toNat ∧
      2 * (nearestEven a j * 2 ^ j.toNat) ≤ 2 * a + 2 ^ j.toNat := by
  have hj : ¬ j ≤ 0 := by omega
  have hd := Nat.div_add_mod a (2 ^ j.toNat)
  have hm := Nat.mod_lt a (Nat.two_pow_pos j.toNat)
  simp only [nearestEven, hj, if_false]
  generalize 2 ^ j.toNat = u at *
  generalize a / u = k at *
  generalize a % u = r at *
  have hc : k * u = u * k := Nat.mul_comm k u
  split
  · rename_i hs
    have : (k + 1) * u = u * k + u := by ring
    omega
  · rename_i hs
    omega

/-- A tie goes to the even neighbour. -/
theorem nearestEven_tie (a : Nat) {j : Int} (h : 0 < j) (ht : 2 * (a % 2 ^ j.toNat) = 2 ^ j.toNat) :
    nearestEven a j % 2 = 0 := by
  have hj : ¬ j ≤ 0 := by omega
  simp only [nearestEven, hj, if_false]
  split <;> omega

/-- The rounding step is monotone. -/
theorem nearestEven_mono {a b : Nat} (j : Int) (h : a ≤ b) : nearestEven a j ≤ nearestEven b j := by
  by_cases hj : j ≤ 0
  · simp only [nearestEven, hj, if_true]
    exact Nat.mul_le_mul_right _ h
  · simp only [nearestEven, hj, if_false]
    have hda := Nat.div_add_mod a (2 ^ j.toNat)
    have hdb := Nat.div_add_mod b (2 ^ j.toNat)
    have hmb := Nat.mod_lt b (Nat.two_pow_pos j.toNat)
    have hle : a / 2 ^ j.toNat ≤ b / 2 ^ j.toNat := Nat.div_le_div_right h
    generalize 2 ^ j.toNat = u at *
    rcases Nat.lt_or_eq_of_le hle with hlt | heq
    · split <;> split <;> omega
    · rw [heq] at hda
      rw [heq]
      generalize a % u = ra at *
      generalize b % u = rb at *
      split <;> split <;> omega

/-- The rounding of an exact zero. -/
@[simp] theorem roundNE_zero (f : Fmt) (t : Int) (zs : Bool) :
    roundNE f 0 t zs = if zs then f.signBit else f.pzero := by
  simp [roundNE]

end Sys2Proof.Machine
end

