-- ==== Sys2Proof/Laws/State.lean ====
section
/-! SUPPORT. One lemma per field per update of the state, and the record each operation builds. -/

namespace Sys2Proof.Machine

@[simp] theorem noResponse_cfg (s : State) : s.noResponse.cfg = s.cfg := rfl
@[simp] theorem noResponse_q (s : State) : s.noResponse.q = s.q := rfl
@[simp] theorem noResponse_rsp (s : State) : s.noResponse.rsp = none := rfl
@[simp] theorem noResponse_host (s : State) : s.noResponse.host = s.host := rfl
@[simp] theorem noResponse_out (s : State) : s.noResponse.out = s.out := rfl
@[simp] theorem noResponse_draws (s : State) : s.noResponse.draws = s.draws + 1 := rfl

@[simp] theorem resetStep_cfg (s : State) : (resetStep s).cfg = s.cfg := rfl
@[simp] theorem resetStep_q (s : State) : (resetStep s).q = [] := rfl
@[simp] theorem resetStep_rsp (s : State) : (resetStep s).rsp = none := rfl
@[simp] theorem resetStep_host (s : State) : (resetStep s).host = s.host.tail := rfl
@[simp] theorem resetStep_out (s : State) : (resetStep s).out = s.out := rfl
@[simp] theorem resetStep_draws (s : State) : (resetStep s).draws = s.draws + 1 := rfl

@[simp] theorem acceptStep_cfg (c : Command) (s : State) : (acceptStep c s).cfg = s.cfg := rfl
@[simp] theorem acceptStep_q (c : Command) (s : State) : (acceptStep c s).q = s.q ++ [c] := rfl
@[simp] theorem acceptStep_rsp (c : Command) (s : State) : (acceptStep c s).rsp = none := rfl
@[simp] theorem acceptStep_host (c : Command) (s : State) : (acceptStep c s).host = s.host.tail := rfl
@[simp] theorem acceptStep_out (c : Command) (s : State) : (acceptStep c s).out = s.out := rfl
@[simp] theorem acceptStep_draws (c : Command) (s : State) : (acceptStep c s).draws = s.draws + 1 := rfl

@[simp] theorem idleStep_cfg (s : State) : (idleStep s).cfg = s.cfg := rfl
@[simp] theorem idleStep_q (s : State) : (idleStep s).q = s.q := rfl
@[simp] theorem idleStep_rsp (s : State) : (idleStep s).rsp = none := rfl
@[simp] theorem idleStep_host (s : State) : (idleStep s).host = s.hostAfterTurn := rfl
@[simp] theorem idleStep_out (s : State) : (idleStep s).out = s.out := rfl
@[simp] theorem idleStep_draws (s : State) : (idleStep s).draws = s.draws + 1 := rfl

@[simp] theorem dequeue_cfg (s : State) : (dequeue s).cfg = s.cfg := rfl
@[simp] theorem dequeue_q (s : State) : (dequeue s).q = s.q.tail := rfl
@[simp] theorem dequeue_rsp (s : State) : (dequeue s).rsp = s.rsp := rfl
@[simp] theorem dequeue_host (s : State) : (dequeue s).host = s.hostAfterTurn := rfl
@[simp] theorem dequeue_out (s : State) : (dequeue s).out = s.out := rfl
@[simp] theorem dequeue_draws (s : State) : (dequeue s).draws = s.draws := rfl

@[simp] theorem emit_cfg (r : Response) (s : State) : (emit r s).cfg = s.cfg := rfl
@[simp] theorem emit_q (r : Response) (s : State) : (emit r s).q = s.q := rfl
@[simp] theorem emit_rsp (r : Response) (s : State) : (emit r s).rsp = some r := rfl
@[simp] theorem emit_host (r : Response) (s : State) : (emit r s).host = s.host := rfl
@[simp] theorem emit_out (r : Response) (s : State) : (emit r s).out = s.out ++ [r] := rfl
@[simp] theorem emit_draws (r : Response) (s : State) : (emit r s).draws = s.draws := rfl

@[simp] theorem raiseIllegalCommand_cfg (op : CmdWord) (s : State) : (raiseIllegalCommand op s).cfg = s.cfg := rfl
@[simp] theorem raiseIllegalCommand_q (op : CmdWord) (s : State) : (raiseIllegalCommand op s).q = s.q := rfl
@[simp] theorem raiseIllegalCommand_rsp (op : CmdWord) (s : State) : (raiseIllegalCommand op s).rsp = some ⟨0, true⟩ := rfl
@[simp] theorem raiseIllegalCommand_host (op : CmdWord) (s : State) : (raiseIllegalCommand op s).host = s.host := rfl
@[simp] theorem raiseIllegalCommand_out (op : CmdWord) (s : State) : (raiseIllegalCommand op s).out = s.out ++ [⟨0, true⟩] := rfl
@[simp] theorem raiseIllegalCommand_draws (op : CmdWord) (s : State) : (raiseIllegalCommand op s).draws = s.draws := rfl

@[simp] theorem answerVexp_cfg (f : Fmt) (W : Nat) (vs : Vec) (s : State) : (answerVexp f W vs s).cfg = s.cfg := rfl
@[simp] theorem answerVexp_q (f : Fmt) (W : Nat) (vs : Vec) (s : State) : (answerVexp f W vs s).q = s.q := rfl
@[simp] theorem answerVexp_rsp (f : Fmt) (W : Nat) (vs : Vec) (s : State) : (answerVexp f W vs s).rsp = some ⟨vexp (s.cfg.rom f) W vs, false⟩ := rfl
@[simp] theorem answerVexp_host (f : Fmt) (W : Nat) (vs : Vec) (s : State) : (answerVexp f W vs s).host = s.host := rfl
@[simp] theorem answerVexp_out (f : Fmt) (W : Nat) (vs : Vec) (s : State) : (answerVexp f W vs s).out = s.out ++ [⟨vexp (s.cfg.rom f) W vs, false⟩] := rfl
@[simp] theorem answerVexp_draws (f : Fmt) (W : Nat) (vs : Vec) (s : State) : (answerVexp f W vs s).draws = s.draws := rfl

@[simp] theorem withFetchWord_cfg (s : State) (nbits w : Nat) : (s.withFetchWord nbits w).cfg = s.cfg := rfl
@[simp] theorem withFetchWord_q (s : State) (nbits w : Nat) : (s.withFetchWord nbits w).q = ⟨BitVec.ofNat 4 w, 0⟩ :: s.q.tail := rfl
@[simp] theorem withFetchWord_rsp (s : State) (nbits w : Nat) : (s.withFetchWord nbits w).rsp = s.rsp := rfl
@[simp] theorem withFetchWord_host (s : State) (nbits w : Nat) : (s.withFetchWord nbits w).host = PortIn.idle :: s.host := rfl
@[simp] theorem withFetchWord_out (s : State) (nbits w : Nat) : (s.withFetchWord nbits w).out = s.out := rfl
@[simp] theorem withFetchWord_draws (s : State) (nbits w : Nat) : (s.withFetchWord nbits w).draws = s.draws := rfl

/-- Raising `IllegalCommand` is emitting its response. -/
theorem raiseIllegalCommand_eq_emit (op : CmdWord) (s : State) : raiseIllegalCommand op s = emit ⟨0, true⟩ s := rfl

/-- Answering an operation is emitting its result. -/
theorem answerVexp_eq_emit (f : Fmt) (W : Nat) (vs : Vec) (s : State) :
    answerVexp f W vs s = emit ⟨vexp (s.cfg.rom f) W vs, false⟩ s := rfl

/-- With nothing more driven by the host, the port is idle. -/
@[simp] theorem portIn_of_host_nil {s : State} (h : s.host = []) : s.portIn = PortIn.idle := by
  simp [State.portIn, h]

/-- The sampled port is the head of what the host drives. -/
@[simp] theorem portIn_of_host_cons {s : State} {p : PortIn} {rest : List PortIn} (h : s.host = p :: rest) :
    s.portIn = p := by
  simp [State.portIn, h]

end Sys2Proof.Machine
end

