-- ==== Sys2Proof/Laws/Step.lean ====
section
/-! SUPPORT. What the meanings and the step can do, said once. -/

namespace Sys2Proof.Machine

/-- Every instruction answers a next state that differs by one emitted response. -/
theorem exec_emits (i : Instr) (s : State) : ∃ r, exec i s = .next (emit r s) := by
  cases i <;> exact ⟨_, rfl⟩

/-- The move taken when `rst_n` is sampled 0. -/
theorem nextMove_of_reset {s : State} (h : s.portIn.rstN = false) : s.nextMove = .reset := by
  simp [State.nextMove, h]

/-- When a move is an `accept`: no reset, a command presented, room in the queue. -/
theorem nextMove_accept_iff {s : State} {c : Command} :
    s.nextMove = .accept c ↔
      s.portIn.rstN = true ∧ s.portIn.cmdValid = true ∧ s.q.length < s.cfg.qdepth ∧
        c = ⟨s.portIn.cmdOp, s.portIn.cmdVs⟩ := by
  unfold State.nextMove State.cmdReady
  cases s.portIn.rstN <;> cases s.portIn.cmdValid <;> simp
  all_goals (try split)
  all_goals (cases hq : s.q <;> simp_all [eq_comm])

/-- When a move is the kernel's: no reset, nothing acceptable presented, and the served command is the head of the queue. -/
theorem nextMove_respond_iff {s : State} {c : Command} :
    s.nextMove = .respond c ↔
      s.portIn.rstN = true ∧ (s.portIn.cmdValid = true → s.cfg.qdepth ≤ s.q.length) ∧ s.q.head? = some c := by
  unfold State.nextMove State.cmdReady
  cases s.portIn.rstN <;> cases s.portIn.cmdValid <;> cases hq : s.q <;> simp
  all_goals (split <;> simp_all)

/-- When nothing moves: no reset, nothing acceptable presented, nothing queued. -/
theorem nextMove_idle_iff {s : State} :
    s.nextMove = .idle ↔
      s.portIn.rstN = true ∧ (s.portIn.cmdValid = true → s.cfg.qdepth ≤ s.q.length) ∧ s.q = [] := by
  unfold State.nextMove State.cmdReady
  cases s.portIn.rstN <;> cases s.portIn.cmdValid <;> cases hq : s.q <;> simp
  all_goals (split <;> simp_all)

/-- Everything a step can do. -/
theorem step_cases {s t : State} (h : step s = .next t) :
    (s.portIn.rstN = false ∧ t = resetStep s) ∨
    (s.portIn.rstN = true ∧ s.portIn.cmdValid = true ∧ s.q.length < s.cfg.qdepth ∧
      t = acceptStep ⟨s.portIn.cmdOp, s.portIn.cmdVs⟩ s) ∨
    (s.portIn.rstN = true ∧ (s.portIn.cmdValid = true → s.cfg.qdepth ≤ s.q.length) ∧
      ∃ c r, s.q.head? = some c ∧ exec (decode c) (dequeue s) = .next (emit r (dequeue s)) ∧ t = emit r (dequeue s)) ∨
    (s.portIn.rstN = true ∧ (s.portIn.cmdValid = true → s.cfg.qdepth ≤ s.q.length) ∧ s.q = [] ∧ t = idleStep s) := by
  unfold step at h
  cases hm : s.nextMove with
  | reset =>
    have hr : s.portIn.rstN = false := by
      by_contra hne
      have hq : s.portIn.rstN = true := by simpa using hne
      unfold State.nextMove at hm
      rw [hq] at hm
      simp only [Bool.true_eq_false, if_false] at hm
      split at hm
      · cases hm
      · split at hm <;> cases hm
    simp only [hm, Host.Outcome.next.injEq] at h
    exact .inl ⟨hr, h.symm⟩
  | accept c =>
    obtain ⟨hr, hv, hl, rfl⟩ := nextMove_accept_iff.1 hm
    simp only [hm, Host.Outcome.next.injEq] at h
    exact .inr (.inl ⟨hr, hv, hl, h.symm⟩)
  | respond c =>
    obtain ⟨hr, hv, hq⟩ := nextMove_respond_iff.1 hm
    obtain ⟨r, he⟩ := exec_emits (decode c) (dequeue s)
    simp only [hm, he, Host.Outcome.next.injEq] at h
    exact .inr (.inr (.inl ⟨hr, hv, c, r, hq, he, h.symm⟩))
  | idle =>
    obtain ⟨hr, hv, hq⟩ := nextMove_idle_iff.1 hm
    simp only [hm, Host.Outcome.next.injEq] at h
    exact .inr (.inr (.inr ⟨hr, hv, hq, h.symm⟩))

/-- A property of the sixteen command words, checked word by word. -/
theorem cmdWord_cases (P : CmdWord → Prop) (h : ∀ n : Fin 16, P (BitVec.ofFin n)) (op : CmdWord) : P op := h op.toFin

/-- What a served command does: its decoded instruction emits the response the block owes it, and nothing else. -/
theorem exec_decode (c : Command) (s : State) : exec (decode c) s = .next (emit (answer s.cfg c) s) := by
  obtain ⟨op, vs⟩ := c
  revert op
  apply cmdWord_cases
  intro n
  fin_cases n <;> simp [decode, algField, fmtField, vlField, answer, legal, opFormat, opLanes, exec, execVexpS4,
    execVexpS8, execVexpS16, execVexpD4, execVexpD8, execIllegalVl3S, execIllegalD16, execIllegalVl3D, execIllegalAlg1,
    answerVexp, raiseIllegalCommand]

/-- A step on which the kernel serves a command. -/
theorem step_of_respond {s : State} {c : Command} (h : s.nextMove = .respond c) :
    step s = .next (emit (answer s.cfg c) (dequeue s)) := by
  simp [step, h, exec_decode]

end Sys2Proof.Machine
end

