-- ==== Sys2Proof/Tests/Slice0.lean ====
section
/-! SUPPORT. The model's own tests: expected values from the vectors of spec/95_test_vectors.md (cited V<n>) and the worked
examples of the rules; then, for each statement with hypotheses, a state and operands that meet them all. -/

namespace Sys2Proof.Tests

open Sys2Proof Sys2Proof.Machine Sys2Proof.Safety

set_option Elab.async false

/-! ### Well-formedness: the one check, and the terms it refuses -/

theorem test_wf_refuses_alg1_with_clear_bit :
    Instr.wf (.illegalAlg1 0b0000 0) = false ∧ Instr.wf (.illegalAlg1 0b0111 0) = false := by decide

theorem test_wf_accepts_alg1_with_set_bit :
    Instr.wf (.illegalAlg1 0b1000 0) = true ∧ Instr.wf (.illegalAlg1 0b1111 0) = true := by decide

/-! ### Decoding: words written from the map of R58 and the list of R59 (`alg fmt vl1 vl0`) -/

theorem test_decode_vexpS4 (vs : Vec) : decode ⟨0b0000, vs⟩ = .vexpS4 vs := by
  simp [decode, algField, fmtField, vlField]
theorem test_decode_vexpS8 (vs : Vec) : decode ⟨0b0001, vs⟩ = .vexpS8 vs := by
  simp [decode, algField, fmtField, vlField]
theorem test_decode_vexpS16 (vs : Vec) : decode ⟨0b0010, vs⟩ = .vexpS16 vs := by
  simp [decode, algField, fmtField, vlField]
theorem test_decode_vexpD4 (vs : Vec) : decode ⟨0b0100, vs⟩ = .vexpD4 vs := by
  simp [decode, algField, fmtField, vlField]
theorem test_decode_vexpD8 (vs : Vec) : decode ⟨0b0101, vs⟩ = .vexpD8 vs := by
  simp [decode, algField, fmtField, vlField]
theorem test_decode_illegalVl3S (vs : Vec) : decode ⟨0b0011, vs⟩ = .illegalVl3S vs := by
  simp [decode, algField, fmtField, vlField]
theorem test_decode_illegalD16 (vs : Vec) : decode ⟨0b0110, vs⟩ = .illegalD16 vs := by
  simp [decode, algField, fmtField, vlField]
theorem test_decode_illegalVl3D (vs : Vec) : decode ⟨0b0111, vs⟩ = .illegalVl3D vs := by
  simp [decode, algField, fmtField, vlField]
theorem test_decode_illegalAlg1 (vs : Vec) :
    decode ⟨0b1000, vs⟩ = .illegalAlg1 0b1000 vs ∧ decode ⟨0b1111, vs⟩ = .illegalAlg1 0b1111 vs := by
  simp [decode, algField]

theorem test_decodeTableWord :
    decodeTableWord 8 0b0101 = some (.vexpD8 0) ∧ decodeTableWord 8 0b1010 = some (.illegalAlg1 0b1010 0) ∧
      decodeTableWord 8 16 = none := by decide +kernel

/-! ### One step of each instruction (V38, V39), and the first step after reset on a placed word -/

/-- A machine just out of reset with one command at the head of its queue. -/
def loaded (op : CmdWord) (vs : Vec) : State := { State.reset with q := [⟨op, vs⟩] }

/-- What the response port shows after a step. -/
def shown (o : Host.Outcome State Fault Refusal) : Option Response :=
  match o with
  | .next t => t.rsp
  | .fault _ => none
  | .refused _ => none

theorem test_vexpS4_ignores_upper_bits :
    shown (step (loaded 0b0000 0xDEADBEEF000000000000000000000000000000000000000000000000000000000000000000000000000000007FC000007FC00001FF8000003F80000000000000)) =
      some ⟨0x7FC0000100000000402DF8543F800000, false⟩ := by decide +kernel

theorem test_vexpS8 :
    shown (step (loaded 0b0001 0x800000003C23D70AC2CE000042B16666C1A0000041A00000BF0000003F000000)) =
      some ⟨0x3F8000003F814953000000007F7A37FC310DA4334DE758443F1B45983FD3094C, false⟩ := by decide +kernel

theorem test_vexpS16 :
    shown (step (loaded 0b0010 0x7F80000080000000C2B17218C2B1721742B1721842B17217C1A0000041A00000BF0000003F000000C2CE000042B166667FC00001FF8000003F80000000000000)) =
      some ⟨0x7F8000003F80000000000000002000107F8000007F7FFF84310DA4334DE758443F1B45983FD3094C000000007F7A37FC7FC0000100000000402DF8543F800000, false⟩ := by
  decide +kernel

theorem test_vexpD4 :
    shown (step (loaded 0b0100 0xFFF800000000012340862E42FEFA39F0C0862400000000003FF0000000000000)) =
      some ⟨0xFFF80000000001237FF0000000000000000E6CF6D08897AC4005BF0A8B145769, false⟩ := by decide +kernel

theorem test_vexpD8 :
    shown (step (loaded 0b0101 0x7FF0000000000000C0862E42FEFA39EF40862E3D70A3D70A3F847AE147AE147BC0340000000000004034000000000000BFE00000000000003FE0000000000000)) =
      some ⟨0x7FF0000000000000000400000000001B7FEFE9CE5C4C52B43FF0292A5D2F22263E21B48655F3726741BCEB088B68E8043FE368B2FC6F960A3FFA61298E1E069C, false⟩ := by
  decide +kernel

theorem test_illegal_words :
    shown (step (loaded 0b0011 0x3F800000)) = some ⟨0, true⟩ ∧ shown (step (loaded 0b0110 0x3F800000)) = some ⟨0, true⟩ ∧
      shown (step (loaded 0b0111 0x3F800000)) = some ⟨0, true⟩ ∧ shown (step (loaded 0b1000 0x3F800000)) = some ⟨0, true⟩ := by
  decide +kernel

theorem test_first_step_runs_the_placed_word :
    shown (step (State.reset.withFetchWord 8 0b0000)) = some ⟨0x3F8000003F8000003F8000003F800000, false⟩ ∧
      shown (step (State.reset.withFetchWord 8 0b1111)) = some ⟨0, true⟩ := by decide +kernel

/-! ### The primitives (V20 to V27) -/

theorem test_fadd_ties :
    fadd (0x3F800000 : Bits .binary32) 0x33800000 = 0x3F800000 ∧ fadd (0x3F800001 : Bits .binary32) 0x33800000 = 0x3F800002 ∧
      fadd (0x7F7FFFFF : Bits .binary32) 0x73000000 = 0x7F800000 ∧ fadd (0x7F7FFFFF : Bits .binary32) 0x72FFFFFF = 0x7F7FFFFF ∧
      fadd (0x007FFFFF : Bits .binary32) 0x00000001 = 0x00800000 ∧ fadd (0x7FC00001 : Bits .binary32) 0x3F800000 = 0x7FC00000 := by
  decide +kernel

theorem test_fmul_subnormal :
    fmul (0x00800001 : Bits .binary32) 0x3F000000 = 0x00400000 ∧ fmul (0x00800003 : Bits .binary32) 0x3F000000 = 0x00400002 ∧
      fmul (0x00000001 : Bits .binary32) 0x3F000001 = 0x00000001 ∧ fmul (0x00000000 : Bits .binary32) 0x7F800000 = 0x7FC00000 ∧
      fmul (0xBF800000 : Bits .binary32) 0x00000000 = 0x80000000 := by decide +kernel

theorem test_fma_rounds_once :
    fma (0x3F800001 : Bits .binary32) 0x3F800001 0xBF800002 = 0x28800000 ∧
      fma (0x80000000 : Bits .binary32) 0x3CB17200 0x80000000 = 0x80000000 ∧
      fma (0x7F000000 : Bits .binary32) 0x40000000 0xFF000000 = 0x7F000000 ∧
      fma (0x3FF0000000000001 : Bits .binary64) 0x3FF0000000000001 0xBFF0000000000002 = 0x3970000000000000 ∧
      fma (0x3F800800 : Bits .binary32) 0x3F800800 0xBF800000 = 0x3A000400 := by decide +kernel

theorem test_rint :
    rint (0x40600000 : Bits .binary32) = 0x40800000 ∧ rint (0xBFC00000 : Bits .binary32) = 0xC0000000 ∧
      rint (0xBF000000 : Bits .binary32) = 0x80000000 ∧ rint (0x4B000001 : Bits .binary32) = 0x4B000001 := by decide +kernel

theorem test_conversions :
    (f2i (0x4EFFFFFF : Bits .binary32)).toInt = 2147483520 ∧ (f2i (0xCF000001 : Bits .binary32)).toInt = -2147483648 ∧
      (f2i (0x40E0000000000000 : Bits .binary64)).toInt = 32768 ∧ i2f (31 : IntT .binary32) = 0x41F80000 ∧
      i2f (0x80000000 : IntT .binary32) = 0xCF000000 := by decide +kernel

theorem test_compare :
    flt (0xBF800001 : Bits .binary32) 0xBF800000 = true ∧ flt (0x80000001 : Bits .binary32) 0x00000001 = true ∧
      feq (0x00000000 : Bits .binary32) 0x80000000 = true ∧ feq (0x7FC00000 : Bits .binary32) 0x7FC00000 = false := by
  decide +kernel

theorem test_integer_split :
    (tableIndex (f := .binary32) (BitVec.ofInt 32 (-4755))).toInt = 13 ∧
      (exponentQuotient (f := .binary32) (BitVec.ofInt 32 (-4755))).toInt = -149 ∧
      (exponentQuotient (f := .binary32) (BitVec.ofInt 32 (-2147483648))).toInt = -67108864 := by decide +kernel

theorem test_pow2Bits :
    pow2Bits (2 : IntT .binary32) = 0x01000000 ∧ pow2Bits (f := .binary32) (BitVec.ofInt 32 (-21)) = 0x00000002 ∧
      pow2Bits (f := .binary32) (BitVec.ofInt 32 (-67108737)) = 0 ∧
      pow2Bits (f := .binary64) (BitVec.ofInt 64 (-2)) = 0x0002000000000000 := by decide +kernel

/-! ### The pipeline: traces of V30, V34 and V41 -/

theorem test_reduction_path_is_visible :
    (rangeReducer referenceRom32 0xBE777671).r1a = 0xBB5E6C40 ∧ (rangeReducer referenceRom32 0xBE777671).r1b = 0xBB5E6C00 ∧
      (rangeReducer referenceRom32 0xBE777671).r1 = 0xBB5E6C40 ∧ expLane referenceRom32 0xBE777671 = 0x3F490ACC := by
  decide +kernel

theorem test_trace_of_doubling_lane :
    let red := rangeReducer referenceRom32 0x42B170A4
    let pol := polynomialEval referenceRom32 red.r1 red.r2
    let rec3 := reconstruct referenceRom32 red.m red.n2 pol.p
    red.n.toInt = 4096 ∧ red.r1 = 0xBB2E0000 ∧ red.r2 = 0xB93FBE8E ∧ pol.r = 0xBB39FBE9 ∧ pol.q = 0xBAB9CF42 ∧
      pol.p = 0xBB39B86A ∧ rec3.p2 = 0x3F7F4648 ∧ rec3.fix = true ∧ rec3.r0 = 0x7EFF4648 ∧ rec3.r1 = 0x7F7F4648 := by
  decide +kernel

theorem test_overridden_lanes :
    unclassified referenceRom32 0x7F7FFFFF = 0xFF800000 ∧ expLane referenceRom32 0x7F7FFFFF = 0x7F800000 ∧
      unclassified referenceRom32 0xC2CE0000 = 0x00000001 ∧ expLane referenceRom32 0xC2CE0000 = 0 ∧
      expLane referenceRom64 0x40862E42FEFA39F0 = 0x7FF0000000000000 := by decide +kernel

/-- The larger `THRESHOLD_2` of V5, under which `1 + x` is visible. -/
theorem test_larger_threshold2 :
    expLane { referenceRom32 with threshold2 := 0x39800000 } 0x39000000 = 0x3F800400 := by decide +kernel

/-! ### The ROM and boot -/

theorem test_romEntry_map :
    romEntry referenceRom32 31 = some 0x3FFA8380 ∧ romEntry referenceRom32 32 = some 0 ∧
      romEntry referenceRom32 64 = some 0x42B17217 ∧ romEntry referenceRom32 70 = some 0x3E2AAAEC ∧
      romEntry referenceRom32 71 = some 0 ∧ romEntry referenceRom64 73 = some 0x3F56C1728D739765 ∧
      romEntry referenceRom32 76 = none := by decide +kernel

theorem test_reference_image_admissible : configAdmissible referenceConfig = true := by decide +kernel

/-- R25 item 1 excludes an entry whose sum is near `-2^(k/32)`: here 1 and -2, which sum to -1. -/
theorem test_entry_refuses_negative_sum :
    entryAdmissible (f := .binary32) 0 0x3F800000 0xC0000000 = false ∧
      entryAdmissible (f := .binary32) 0 0x3F800000 0x00000000 = true := by decide +kernel

theorem test_boot_refuses_no_room : configAdmissible { referenceConfig with qdepth := 0 } = false := by decide +kernel

theorem test_boot_refuses_thresholds_reversed :
    thresholdsAdmissible { referenceRom32 with threshold2 := 0x42B17217 } = false := by decide +kernel

/-- Tang's published `THRESHOLD_1` for single precision, 341·ln 2 (`436C5D0B` is near it), fails R25 items 5 and 6. -/
theorem test_boot_refuses_large_threshold1 :
    exponentAdmissible { referenceRom32 with threshold1 := 0x436C5D0B } = false ∧
      thresholdRangeAdmissible { referenceRom32 with threshold1 := 0x436C5D0B } = false := by decide +kernel

/-! ### Witnesses: for each statement with hypotheses, values that meet them together -/

/-- The port driven with a command, no reset. -/
def driven (op : CmdWord) (vs : Vec) : PortIn := ⟨true, true, op, vs⟩

/-- The port with reset asserted. -/
def resetEdge : PortIn := ⟨false, false, 0, 0⟩

/-- Just out of reset with a command presented. -/
def offered : State := { State.reset with host := [driven 0b0011 5] }

/-- The queue full (one command, `QDEPTH` = 1) and another command presented. -/
def full (op : CmdWord) : State := { loaded op 7 with host := [driven 0b0001 9] }

theorem witness_IllegalWordsAcceptedAndAnswered :
    (offered.portIn.rstN = true ∧ offered.portIn.cmdValid = true ∧ offered.q.length < offered.cfg.qdepth) ∧
      (loaded 0b0110 7).nextMove = .respond ⟨0b0110, 7⟩ ∧ legal 0b0110 = false := by decide +kernel

theorem witness_EveryCommandIsOneInstruction : legal 0b0101 = true ∧ legal 0b0110 = false := by decide

theorem witness_DecodeOfEncodeIsIdentity :
    Instr.wf (.vexpS4 1) = true ∧ Instr.wf (.illegalVl3D 1) = true ∧ Instr.wf (.illegalAlg1 0b1000 1) = true := by decide

theorem witness_VexpS4Completes :
    State.reset.cfg.rom32 = referenceRom32 ∧
      (0x7FC00001FF8000003F80000000000000 : Vec).extractLsb' 0 128 = 0x7FC00001FF8000003F80000000000000 ∧
      (0x55557FC00001FF8000003F80000000000000 : Vec).extractLsb' 0 128 =
        (0x7FC00001FF8000003F80000000000000 : Vec).extractLsb' 0 128 := by decide +kernel

theorem witness_VexpS8Completes :
    State.reset.cfg.rom32 = referenceRom32 ∧
      (0xBF0000003F000000C2CE000042B166667FC00001FF8000003F80000000000000 : Vec).extractLsb' 0 256 =
        0xBF0000003F000000C2CE000042B166667FC00001FF8000003F80000000000000 := by decide +kernel

theorem witness_worked_example_S16 :
    vexp referenceRom32 16 0x7F80000080000000C2B17218C2B1721742B1721842B17217C1A0000041A00000BF0000003F000000C2CE000042B166667FC00001FF8000003F80000000000000 =
      0x7F8000003F80000000000000002000107F8000007F7FFF84310DA4334DE758443F1B45983FD3094C000000007F7A37FC7FC0000100000000402DF8543F800000 := by
  decide +kernel

theorem witness_VexpD4Completes :
    State.reset.cfg.rom64 = referenceRom64 ∧
      (0xFFF00000000000007FF000000000000000000000000000003FF0000000000000 : Vec).extractLsb' 0 256 =
        0xFFF00000000000007FF000000000000000000000000000003FF0000000000000 := by decide +kernel

/-- The operand of R195's worked example, which the machine at reset computes as the rule says. -/
theorem witness_worked_example_D8 :
    vexp referenceRom64 8 0xC0863000000000004086300000000000FFF8000000000123C08624000000000040862E3D70A3D70ABFE00000000000003FE00000000000003FF0000000000000 =
      0x00000000000000007FF0000000000000FFF8000000000123000E6CF6D08897AC7FEFE9CE5C4C52B43FE368B2FC6F960A3FFA61298E1E069C4005BF0A8B145769 := by
  decide +kernel

theorem witness_IllegalCommandIsPrecise :
    (full 0b1000).nextMove = .respond ⟨0b1000, 7⟩ ∧ legal 0b1000 = false := by decide +kernel

theorem witness_StepRunsTheHeadCommand :
    ((loaded 0b0000 7).q = encode (.vexpS4 7) :: [] ∧ (loaded 0b0000 7).portIn.rstN = true ∧
      (loaded 0b0000 7).portIn.cmdValid = false) ∧
    ((full 0b1111).q = encode (.illegalAlg1 0b1111 7) :: [] ∧ (full 0b1111).portIn.rstN = true ∧
      (full 0b1111).cfg.qdepth ≤ (full 0b1111).q.length) := by decide +kernel

theorem witness_StepIsAcceptOrRespond :
    offered.portIn.rstN = true ∧ (loaded 0 7).portIn.rstN = true ∧ State.reset.portIn.rstN = true := by decide

theorem witness_PresentedWhileFullIsHeld :
    (full 0).portIn.rstN = true ∧ (full 0).portIn.cmdValid = true ∧ (full 0).cfg.qdepth ≤ (full 0).q.length := by decide

/-- While `rsp_valid` is 1 the ports show the response; for `StepIsAcceptOrRespond` this is its `respond` clause. -/
theorem test_ports_show_the_response :
    ∃ t, step (loaded 0b0011 7) = .next t ∧ t.rspValid = true ∧ t.rspVd = 0 ∧ t.rspIllegal = true :=
  ⟨_, rfl, rfl, rfl, rfl⟩

/-- A command in flight, an edge with reset asserted, then a command. -/
def resetting : State := { loaded 0b0000 7 with host := [resetEdge, driven 0b0011 5] }

theorem witness_ResetEmptiesTheQueue :
    resetting.portIn.rstN = false ∧ (resetStep resetting).portIn.rstN = true ∧ 1 ≤ (resetStep resetting).cfg.qdepth := by
  decide

theorem witness_ResetDiscardsCommandsInFlight :
    resetting.portIn.rstN = false ∧ noReset resetting.host.tail = true ∧
      ∃ t, Host.Core.run core (2 + 1) resetting = .next t ∧ drained t ∧ t.out = [⟨0, true⟩] :=
  ⟨rfl, rfl, _, rfl, ⟨rfl, rfl⟩, rfl⟩

theorem witness_ResponseDependsOnCommandAndItsRom :
    (loaded 0b0101 7).nextMove = .respond ⟨0b0101, 7⟩ ∧
      ({ full 0b0101 with draws := 3, out := [⟨1, false⟩] } : State).nextMove = .respond ⟨0b0101, 7⟩ := by decide +kernel

theorem witness_OperandPortsIgnoredWhenIdle : resetEdge.rstN = false ∧ PortIn.idle.cmdValid = false := by decide

/-- It serves `RomNeverWritten` too, which asks for a next state only. -/
theorem witness_StepKeepsInvariant : Inv (loaded 0b0011 7) ∧ ∃ t, step (loaded 0b0011 7) = .next t :=
  ⟨⟨by decide, by simp [loaded, State.reset], by simp [loaded, State.reset]⟩, _, rfl⟩

theorem witness_ResponsesInOrderForEverySchedule :
    noReset (full 0b0011).host = true ∧ ∃ t, Host.Core.run core 3 (full 0b0011) = .next t ∧ drained t :=
  ⟨rfl, _, rfl, rfl, rfl⟩

theorem witness_EveryCommandIsAnswered : 1 ≤ (full 0).cfg.qdepth ∧ noReset (full 0).host = true := by decide

theorem witness_FaultReadingAgreesOnLegalRuns :
    allLegal (full 0) = true ∧ (full 0b0111).nextMove = .respond ⟨0b0111, 7⟩ ∧ legal 0b0111 = false := by decide +kernel

theorem witness_LaneDependsOnlyOnItself :
    Fmt.w .binary32 * 16 ≤ 512 ∧ Fmt.w .binary32 * 4 ≤ 512 ∧
      lane .binary32 3 0x3F8000000000000000000000000000000000 = lane .binary32 3 0xAA3F80000000000000BB000000000000000000 ∧
      Fmt.w .binary64 * 8 ≤ 512 := by decide +kernel

theorem witness_NanForwardedBitForBit : maskNan (0xFF800001 : Bits .binary32) = true := by decide +kernel

/-- For `OutputByClass`, `MasksExcludeOneAnother` and `ZeroAndSubnormalGiveOne`. -/
theorem witness_ThresholdsOk : ThresholdsOk referenceRom32 ∧ ThresholdsOk referenceRom64 := by decide +kernel

/-- Each clause of `OutputByClass` at the edge of its range: `THRESHOLD_1` and `THRESHOLD_2` are 42B17217 and 33000000. -/
theorem witness_OutputByClass :
    fnan (0x7F800001 : Bits .binary32) = true ∧
    (finite (0x42B17218 : Bits .binary32) = true ∧ val referenceRom32.threshold1 < val (0x42B17218 : Bits .binary32)) ∧
    (finite (0xC2B17218 : Bits .binary32) = true ∧ val (0xC2B17218 : Bits .binary32) < -val referenceRom32.threshold1) ∧
    (finite (0xB2FFFFFF : Bits .binary32) = true ∧ |val (0xB2FFFFFF : Bits .binary32)| < val referenceRom32.threshold2) ∧
    (finite (0xC2B17217 : Bits .binary32) = true ∧ val referenceRom32.threshold2 ≤ |val (0xC2B17217 : Bits .binary32)| ∧
      |val (0xC2B17217 : Bits .binary32)| ≤ val referenceRom32.threshold1) ∧
    (val referenceRom32.threshold2 ≤ |val (0x33000000 : Bits .binary32)|) := by decide +kernel

theorem witness_ZeroAndSubnormalGiveOne :
    expField (0x807FFFFF : Bits .binary32) = 0 ∧ |val (0x807FFFFF : Bits .binary32)| < val referenceRom32.threshold2 := by
  decide +kernel

theorem witness_Pow2BitsIsPowerOfTwo :
    ((254 : IntT .binary32).toInt ≤ (Fmt.expAllOnes .binary32 : Int) - 1 ∧ 1 ≤ (1 : IntT .binary32).toInt) ∧
      -((Fmt.shift .binary32 : Int) - 1) ≤ (BitVec.ofInt 32 (-22)).toInt ∧
      (BitVec.ofInt 32 (-23)).toInt < -((Fmt.shift .binary32 : Int) - 1) := by decide +kernel

/-- The three clauses: a quotient of zero at 0.01 (V30) and at -0; the largest subnormal; a magnitude just below `THRESHOLD_2`. -/
theorem witness_ZeroQuotientPassesThrough :
    (finitePositive referenceRom32.invL = true ∧ finitePositive referenceRom32.l1 = true ∧
      finitePositive referenceRom32.l2 = true ∧ valRat referenceRom32.invL ≤ 64) ∧
    (finite (0x3C23D70A : Bits .binary32) = true ∧ fzero (rangeReducer referenceRom32 0x3C23D70A).nf = true) ∧
    fzero (rangeReducer referenceRom32 0x80000000).nf = true ∧ expField (0x807FFFFF : Bits .binary32) = 0 ∧
    (finite (0xB2FFFFFF : Bits .binary32) = true ∧
      |val (0xB2FFFFFF : Bits .binary32)| < val (referenceRom .binary32).threshold2) := by
  decide +kernel

/-- Lanes with `N` = 511, -511, 512 and -512, the edges of the two paths. -/
theorem witness_ReductionPathAndRemainders :
    (rangeReducer referenceRom32 0x41311972).n.toInt = 511 ∧ (rangeReducer referenceRom32 0xC1311972).n.toInt = -511 ∧
      (rangeReducer referenceRom32 0x41317218).n.toInt = 512 ∧ (rangeReducer referenceRom32 0xC1317218).n.toInt = -512 ∧
      finite (rangeReducer referenceRom32 0x41317218).nf = true ∧ finitePositive referenceRom32.l2 = true ∧
      |valRat (rangeReducer referenceRom32 0xC1317218).nf| < 2 ^ 31 := by
  decide +kernel

/-- `R2` of V30's first two lanes of either sign, and the pass-through of -0 (C12 of spec/90_conflicts.md). -/
theorem test_trailing_remainder :
    (rangeReducer referenceRom32 0x3F000000).r2 = 0xB589D0F6 ∧ (rangeReducer referenceRom32 0xBF000000).r2 = 0x3589D0F6 ∧
      (rangeReducer referenceRom32 0x80000000).r1 = 0 ∧ (rangeReducer referenceRom32 0x80000000).r2 = 0 ∧
      (rangeReducer referenceRom32 0x3C23D70A).r2 = 0x80000000 := by decide +kernel

/-- Both ROMs have positive coefficients, so both clauses have an instance in each format. -/
theorem witness_ZeroResidualGivesZeroPolynomial :
    (∀ c ∈ referenceRom32.a.toList, finitePositive c = true) ∧ (∀ c ∈ referenceRom64.a.toList, finitePositive c = true) ∧
      fzero (0x80000000 : Bits .binary32) = true ∧ fzero (0 : Bits .binary64) = true :=
  ⟨List.all_eq_true.1 (by decide +kernel), List.all_eq_true.1 (by decide +kernel), by decide +kernel, by decide +kernel⟩

theorem test_zero_residual :
    (polynomialEval referenceRom32 0 0x80000000).p = 0 ∧ (polynomialEval referenceRom32 0x80000000 0x80000000).p = 0 ∧
      (polynomialEval referenceRom64 0x8000000000000000 0x8000000000000000).p = 0 := by decide +kernel

theorem witness_ZeroPolynomialGivesSummedEntry :
    finite (tableLookup referenceRom64 31).sl = true ∧ 1 ≤ valRat (tableLookup referenceRom64 31).sl ∧
      valRat (tableLookup referenceRom64 31).sl < 2 ∧ finite (tableLookup referenceRom64 31).st = true ∧
      fzero (0x8000000000000000 : Bits .binary64) = true := by decide +kernel

/-- It serves `AdmissibleRomIsClose` too, which asks for an image that passes the checks. -/
theorem witness_AdmissibleRomBoundsExponent :
    romAdmissible referenceRom32 = true ∧ romAdmissible referenceRom64 = true ∧ finite referenceRom32.threshold1 = true ∧
      |val referenceRom32.threshold1| ≤ val referenceRom32.threshold1 := by decide +kernel

/-- A pattern of each class of R71, at the edges of the normal and the subnormal range. -/
theorem witness_PatternClassAndValue :
    fnan (0x7FC00000 : Bits .binary32) = true ∧ finf (0xFF800000 : Bits .binary32) = true ∧
      (1 ≤ expField (0x00800000 : Bits .binary32) ∧ expField (0x7F7FFFFF : Bits .binary32) < Fmt.expAllOnes .binary32) ∧
      (expField (0x007FFFFF : Bits .binary32) = 0 ∧ fracField (0x007FFFFF : Bits .binary32) ≠ 0) ∧
      (expField (0x80000000 : Bits .binary32) = 0 ∧ fracField (0x80000000 : Bits .binary32) = 0) := by decide +kernel

/-- Finite patterns, as `RoundingARepresentableValueIsExact`, `ConversionToIntegerSaturates` and `ComparisonsFollowValues`
ask; a NaN and an infinity are in `witness_PatternClassAndValue`. -/
theorem witness_finite : finite (0x7F7FFFFF : Bits .binary32) = true ∧ finite (0x8000000000000001 : Bits .binary64) = true := by
  decide +kernel

/-- Both sides of the overflow bound of `RoundsToNearestEven`: halfway above the largest finite value, and just below that. -/
theorem witness_RoundsToNearestEven :
    roundNE .binary32 (2 ^ 25 - 1) 103 false = 0x7F800000 ∧ roundNE .binary32 (2 ^ 26 - 3) 102 false = 0x7F7FFFFF := by
  decide +kernel

theorem witness_sum_written_as_scaled_integer :
    (3 : ℚ) * (2 : ℚ) ^ (-1 : Int) = valRat (0x3F800000 : Bits .binary32) + valRat (0x3F000000 : Bits .binary32) ∧
      (3 : ℚ) * (2 : ℚ) ^ (-2 : Int) = valRat (0x3F400000 : Bits .binary32) * valRat (0x3F800000 : Bits .binary32) ∧
      (1 : ℚ) * (2 : ℚ) ^ (-2 : Int) =
        valRat (0x3F400000 : Bits .binary32) * valRat (0x3F800000 : Bits .binary32) + valRat (0xBF000000 : Bits .binary32) := by
  have h1 : valRat (0x3F800000 : Bits .binary32) = 1 := by decide +kernel
  have h2 : valRat (0x3F000000 : Bits .binary32) = 1 / 2 := by decide +kernel
  have h3 : valRat (0x3F400000 : Bits .binary32) = 3 / 4 := by decide +kernel
  have h4 : valRat (0xBF000000 : Bits .binary32) = -1 / 2 := by decide +kernel
  rw [h1, h2, h3, h4]
  norm_num

theorem witness_sum_overflows :
    (2 - (2 : ℚ) ^ (-(Fmt.p .binary32 : Int))) * (2 : ℚ) ^ (Fmt.bias .binary32 : Int) ≤
      |valRat (0x7F7FFFFF : Bits .binary32) + valRat (0x73000000 : Bits .binary32)| := by
  have h : valRat (0x7F7FFFFF : Bits .binary32) + valRat (0x73000000 : Bits .binary32) = (2 ^ 25 - 1) * 2 ^ 103 := by
    decide +kernel
  rw [h]
  norm_num [Fmt.p, Fmt.bias, zpow_neg]

/-- The smallest normal scale times 1: in the normal range, as `ScalingIsExactInNormalRange` and the last clause of
`ProductIsExactThenRounded` ask. -/
theorem witness_scaling_in_normal_range :
    1 ≤ (1 : IntT .binary32).toInt ∧ finite (0x3F800000 : Bits .binary32) = true ∧
    fracField (pow2Bits (1 : IntT .binary32)) = 0 ∧
    (2 : ℚ) ^ Fmt.emin .binary32 ≤ |valRat (pow2Bits (1 : IntT .binary32)) * valRat (0x3F800000 : Bits .binary32)| ∧
    |valRat (pow2Bits (1 : IntT .binary32)) * valRat (0x3F800000 : Bits .binary32)| <
      (2 : ℚ) ^ ((Fmt.bias .binary32 : Int) + 1) := by
  have h : valRat (pow2Bits (1 : IntT .binary32)) * valRat (0x3F800000 : Bits .binary32) = 1 / 2 ^ 126 := by decide +kernel
  refine ⟨by decide +kernel, by decide +kernel, by decide +kernel, ?_, ?_⟩ <;> rw [h] <;>
    norm_num [Fmt.emin, Fmt.bias, zpow_neg]

/-- An infinity with a factor that is neither NaN nor zero, and with a zero. -/
theorem witness_ProductIsExactThenRounded :
    (fnan (0x7F800000 : Bits .binary32) = false ∧ finf (0x7F800000 : Bits .binary32) = true ∧
      fnan (0xBF800000 : Bits .binary32) = false ∧ fzero (0xBF800000 : Bits .binary32) = false) ∧
      fzero (0x80000000 : Bits .binary32) = true := by decide +kernel

theorem witness_RoundingIsMonotone : (-1 : Int) ≤ -1 ∧ (-1 : Int) ≤ 0 := by decide

theorem witness_FusedIsRoundedOnce :
    (finf (0x7F800000 : Bits .binary32) = true ∧ fzero (0x00000000 : Bits .binary32) = true) ∧
      valRat (0x80000000 : Bits .binary32) * valRat (0x3F800000 : Bits .binary32) + valRat (0x80000000 : Bits .binary32) = 0 := by
  decide +kernel

/-- A tie of `rint`, and a magnitude at the bound above which every value is integral. -/
theorem witness_RintRoundsToIntegral :
    |(2 : ℚ) - valRat (0x3FC00000 : Bits .binary32)| = 1 / 2 ∧
      (2 : ℚ) ^ (Fmt.p .binary32 - 1) ≤ |valRat (0xCB000000 : Bits .binary32)| := by
  have h1 : valRat (0x3FC00000 : Bits .binary32) = 3 / 2 := by decide +kernel
  have h2 : valRat (0xCB000000 : Bits .binary32) = -2 ^ 23 := by decide +kernel
  rw [h1, h2]
  norm_num [Fmt.p]

theorem witness_ConversionFromIntegerIsExact :
    |(BitVec.ofInt 32 (-16777215)).toInt| < 2 ^ Fmt.p .binary32 := by decide +kernel

theorem witness_BootAcceptsExactlyAdmissible :
    configAdmissible referenceConfig = true ∧ configAdmissible { referenceConfig with qdepth := 0 } = false := by
  decide +kernel

theorem witness_ReferenceThresholds (f : Fmt) :
    finite (f.signBit) = true ∧ ((valRat f.signBit : ℚ) : ℝ) < ((f.bias : ℝ) + 1) * Real.log 2 := by
  have h : valRat f.signBit = 0 := by cases f <;> decide +kernel
  have hl : 0 < Real.log 2 := Real.log_pos (by norm_num)
  refine ⟨by cases f <;> decide +kernel, ?_⟩
  rw [h, Rat.cast_zero]
  positivity

theorem witness_ReferenceReductionProductsExact :
    |(BitVec.ofInt 32 (-4136)).toInt| ≤ 4136 ∧ |(BitVec.ofInt 64 32808).toInt| ≤ 32808 ∧
      |(BitVec.ofInt 32 (-511)).toInt| < 512 := by decide +kernel

end Sys2Proof.Tests
end

section
/-! PROOFS. `RN_T` (R74) is round to nearest, ties to even, with overflow to infinity from halfway on. First the fields and
the value of a pattern, then the rounding of a magnitude `a · 2^t` counted in the last places of its binade, then the signed
statement. -/

namespace Sys2Proof

/-! ### The format constants -/

/-- The significand is the fraction and the hidden bit (R9, R26). -/
theorem Fmt.p_eq (f : Fmt) : f.p = f.shift + 1 := by cases f <;> rfl

/-- `EXP_ALL_ONES` is the largest value of the exponent field (R26). -/
theorem Fmt.expAllOnes_eq (f : Fmt) : f.expAllOnes = 2 ^ f.ebits - 1 := by cases f <;> rfl

/-- The smallest normal exponent is at most the largest. -/
theorem Fmt.emin_le_bias (f : Fmt) : f.emin ≤ (f.bias : Int) := by cases f <;> decide

/-- The fraction is at least one bit wide. -/
theorem Fmt.shift_pos (f : Fmt) : 0 < f.shift := by cases f <;> decide

/-- The unit of `val` is two to a negative power. -/
theorem Fmt.unit_neg (f : Fmt) : f.unit < 0 := by cases f <;> decide

/-- Half of the first significand too wide for the format is the first normal one. -/
theorem Fmt.two_pow_p (f : Fmt) : 2 ^ f.p = 2 * 2 ^ f.shift := by rw [f.p_eq, pow_succ, Nat.mul_comm]

end Sys2Proof

namespace Sys2Proof.Machine

variable {f : Fmt}

/-! ### Fields and value of a pattern -/

/-- The fields of the pattern assembled from an exponent field `e` and a fraction `m`, with sign bit 0 (R70). -/
theorem fields_ofNat (f : Fmt) {e m : Nat} (he : e < 2 ^ f.ebits) (hm : m < 2 ^ f.shift) :
    sign (BitVec.ofNat f.w (e * 2 ^ f.shift + m)) = false ∧
      expField (BitVec.ofNat f.w (e * 2 ^ f.shift + m)) = e ∧
      fracField (BitVec.ofNat f.w (e * 2 ^ f.shift + m)) = m := by
  have hw : e * 2 ^ f.shift + m < 2 ^ (f.w - 1) := by
    cases f <;> simp only [Fmt.shift, Fmt.ebits, Fmt.w] at * <;> omega
  have hlt : e * 2 ^ f.shift + m < 2 ^ f.w := hw.trans_le (Nat.pow_le_pow_right two_pos (Nat.sub_le ..))
  refine ⟨?_, ?_, ?_⟩
  · rw [sign, BitVec.msb_eq_decide, BitVec.toNat_ofNat, Nat.mod_eq_of_lt hlt]
    simpa using hw
  · rw [expField, BitVec.extractLsb'_toNat, BitVec.toNat_ofNat, Nat.mod_eq_of_lt hlt, Nat.shiftRight_eq_div_pow,
      Nat.mul_comm, Nat.mul_add_div (Nat.two_pow_pos _), Nat.div_eq_of_lt hm, Nat.add_zero, Nat.mod_eq_of_lt he]
  · rw [fracField, BitVec.extractLsb'_toNat, BitVec.toNat_ofNat, Nat.mod_eq_of_lt hlt, Nat.shiftRight_zero,
      Nat.mul_add_mod_of_lt hm]

/-- Setting the sign bit makes the pattern negative and changes no other field (R70). -/
@[simp] theorem sign_or_signBit (b : Bits f) : sign (b ||| f.signBit) = true := by
  have h : f.signBit.msb = true := by cases f <;> decide
  rw [sign, BitVec.msb_or, h, Bool.or_true]

@[simp] theorem expField_or_signBit (b : Bits f) : expField (b ||| f.signBit) = expField b := by
  have h : f.signBit.extractLsb' f.shift f.ebits = 0#f.ebits := by cases f <;> decide
  rw [expField, BitVec.extractLsb'_or, h, BitVec.or_zero, expField]

@[simp] theorem fracField_or_signBit (b : Bits f) : fracField (b ||| f.signBit) = fracField b := by
  have h : f.signBit.extractLsb' 0 f.shift = 0#f.shift := by cases f <;> decide
  rw [fracField, BitVec.extractLsb'_or, h, BitVec.or_zero, fracField]

@[simp] theorem fnan_or_signBit (b : Bits f) : fnan (b ||| f.signBit) = fnan b := by simp [fnan]

@[simp] theorem finf_or_signBit (b : Bits f) : finf (b ||| f.signBit) = finf b := by simp [finf]

@[simp] theorem finite_or_signBit (b : Bits f) : finite (b ||| f.signBit) = finite b := by simp [finite]

@[simp] theorem magnitude_or_signBit (b : Bits f) : magnitude (b ||| f.signBit) = magnitude b := by simp [magnitude]

/-- `PINF` is the positive infinity (R26, R71). -/
theorem finf_pinf (f : Fmt) : finf f.pinf = true ∧ sign f.pinf = false := by cases f <;> decide

/-- The two zeros (R26, R71). -/
theorem zero_pattern (f : Fmt) (s : Bool) :
    finite (if s then f.signBit else f.pzero) = true ∧ sign (if s then f.signBit else f.pzero) = s ∧
      magnitude (if s then f.signBit else f.pzero) = 0 := by
  cases f <;> cases s <;> decide

/-- The value as a signed multiple of the unit (R71). -/
theorem valRat_eq (b : Bits f) :
    valRat b = (if sign b then -1 else 1) * ((magnitude b : ℚ) * (2 : ℚ) ^ f.unit) := by
  have hu : ((2 ^ (-f.unit).toNat : Nat) : ℚ) = ((2 : ℚ) ^ f.unit)⁻¹ := by
    rw [← zpow_neg, Nat.cast_pow, ← zpow_natCast, Int.toNat_of_nonneg (neg_nonneg.mpr f.unit_neg.le)]
    rfl
  rw [valRat, Rat.mkRat_eq_div, ← Int.cast_natCast, Int.cast_natCast, hu, div_inv_eq_mul, val_eq]
  split <;> push_cast <;> ring

/-- The absolute value in the same unit. -/
theorem abs_valRat (b : Bits f) : |valRat b| = magnitude b * (2 : ℚ) ^ f.unit := by
  have h : (0 : ℚ) ≤ magnitude b * (2 : ℚ) ^ f.unit := mul_nonneg (Nat.cast_nonneg _) (zpow_nonneg two_pos.le _)
  rw [valRat_eq, abs_mul, abs_of_nonneg h]
  split <;> simp

/-- A magnitude below binade `d` (counted from `emin`), or a whole multiple of the binade's last place: nothing between. -/
theorem magnitude_lt_or_dvd (b : Bits f) (d : Nat) : magnitude b < 2 ^ (f.shift + d) ∨ 2 ^ d ∣ magnitude b := by
  have hF := fracField_lt b
  unfold magnitude
  split
  next => exact .inl (hF.trans_le (Nat.pow_le_pow_right two_pos (Nat.le_add_right ..)))
  next =>
    rcases Nat.lt_or_ge (expField b - 1) d with h | h
    · left
      calc (2 ^ f.shift + fracField b) * 2 ^ (expField b - 1)
          < 2 ^ (f.shift + 1) * 2 ^ (expField b - 1) := by gcongr; rw [pow_succ]; omega
        _ = 2 ^ (f.shift + (expField b - 1 + 1)) := by rw [← pow_add]; congr 1; omega
        _ ≤ 2 ^ (f.shift + d) := Nat.pow_le_pow_right two_pos (by omega)
    · exact .inr (dvd_mul_of_dvd_right (pow_dvd_pow 2 h) _)

/-- The pattern that the last lines of R74 assemble: its value is `k · 2^(ex - EXPONENT_SHIFT)`, its last bit that of `k`. -/
theorem packMagnitude_spec {k : Nat} {ex : Int} (hlo : f.emin ≤ ex) (hhi : ex ≤ (f.bias : Int)) (hk : k < 2 ^ f.p)
    (hn : ex = f.emin ∨ 2 ^ f.shift ≤ k) :
    sign (packMagnitude f k ex) = false ∧ finite (packMagnitude f k ex) = true ∧
      magnitude (packMagnitude f k ex) = k * 2 ^ (ex - f.emin).toNat ∧
      fracField (packMagnitude f k ex) % 2 = k % 2 := by
  have hE := f.expAllOnes_eq
  have hA : f.expAllOnes = 2 * f.bias + 1 := rfl
  have hm : f.emin = 1 - (f.bias : Int) := rfl
  rw [f.two_pow_p] at hk
  have hover : ¬ ex > (f.bias : Int) := by omega
  by_cases hs : k < 2 ^ f.shift
  · obtain ⟨hsign, hexp, hfrac⟩ := fields_ofNat f (e := 0) (Nat.two_pow_pos _) hs
    have hd : (ex - f.emin).toNat = 0 := by omega
    rw [Nat.zero_mul, Nat.zero_add] at hsign hexp hfrac
    simp only [packMagnitude, hover, hs, if_true, if_false, finite, magnitude, hsign, hexp, hfrac, hd, pow_zero, Nat.mul_one]
    exact ⟨trivial, bne_iff_ne.mpr (by omega), trivial, trivial⟩
  · have hlt : k - 2 ^ f.shift < 2 ^ f.shift := by omega
    obtain ⟨hsign, hexp, hfrac⟩ := fields_ofNat f (e := (ex + (f.bias : Int)).toNat) (by omega) hlt
    have hor : (ex + (f.bias : Int)).toNat <<< f.shift ||| (k - 2 ^ f.shift) =
        (ex + (f.bias : Int)).toNat * 2 ^ f.shift + (k - 2 ^ f.shift) := by
      rw [Nat.shiftLeft_eq, Nat.mul_comm, Nat.two_pow_add_eq_or_of_lt hlt]
    have heven : 2 ∣ 2 ^ f.shift := dvd_pow_self 2 f.shift_pos.ne'
    have hpos : (ex + (f.bias : Int)).toNat ≠ 0 := by omega
    have hd : (ex + (f.bias : Int)).toNat - 1 = (ex - f.emin).toNat := by omega
    have hsum : 2 ^ f.shift + (k - 2 ^ f.shift) = k := by omega
    simp only [packMagnitude, hover, hs, if_false, hor, finite, magnitude, hsign, hexp, hfrac, hpos, hd, hsum]
    exact ⟨trivial, bne_iff_ne.mpr (by omega), trivial, by omega⟩

/-! ### The rounding of a magnitude -/

/-- The exponent of the binade of `a · 2^t`, at least `emin` (R74: `ex` before the carry). -/
def roundExp (f : Fmt) (a : Nat) (t : Int) : Int := max ((a.log2 : Int) + t) f.emin

/-- The significand of `a · 2^t`, rounded in its binade (R74: `k` before the carry). -/
def roundSig (f : Fmt) (a : Nat) (t : Int) : Nat := nearestEven a (roundExp f a t - (f.shift : Int) - t)

/-- The last place of the binade of `a · 2^t` (R74: `ulp`). -/
def roundUlp (f : Fmt) (a : Nat) (t : Int) : ℚ := (2 : ℚ) ^ (roundExp f a t - (f.shift : Int))

/-- The pattern of the rounded magnitude, sign apart. -/
def roundAbs (f : Fmt) (a : Nat) (t : Int) : Bits f :=
  if roundSig f a t = 2 ^ f.p then packMagnitude f (roundSig f a t / 2) (roundExp f a t + 1)
  else packMagnitude f (roundSig f a t) (roundExp f a t)

/-- The rounded magnitude lies beyond the largest finite value. -/
def RoundOverflows (f : Fmt) (a : Nat) (t : Int) : Prop :=
  (f.bias : Int) < roundExp f a t ∨ roundExp f a t = (f.bias : Int) ∧ roundSig f a t = 2 ^ f.p

/-- `RN_T` of a value that is not zero is the rounded magnitude with the sign put back. -/
theorem roundNE_of_ne_zero {n : Int} (hn : n ≠ 0) (t : Int) (zs : Bool) :
    roundNE f n t zs = if n < 0 then roundAbs f n.natAbs t ||| f.signBit else roundAbs f n.natAbs t :=
  if_neg hn

/-- The last place is positive. -/
theorem roundUlp_pos (f : Fmt) (a : Nat) (t : Int) : 0 < roundUlp f a t := zpow_pos two_pos _

/-- No binade lies below that of the smallest normal. -/
theorem emin_le_roundExp (f : Fmt) (a : Nat) (t : Int) : f.emin ≤ roundExp f a t := le_max_right ..

/-- The last place in units of the smallest subnormal. -/
theorem roundUlp_eq (f : Fmt) (a : Nat) (t : Int) :
    roundUlp f a t = ((2 ^ (roundExp f a t - f.emin).toNat : Nat) : ℚ) * (2 : ℚ) ^ f.unit := by
  have h := emin_le_roundExp f a t
  rw [Nat.cast_pow, ← zpow_natCast, Int.toNat_of_nonneg (by omega), Nat.cast_ofNat, ← zpow_add₀ two_ne_zero, roundUlp]
  congr 1
  unfold Fmt.unit
  ring

/-- The first value of the binade in last places. -/
theorem two_zpow_roundExp (f : Fmt) (a : Nat) (t : Int) :
    (2 : ℚ) ^ roundExp f a t = (2 ^ f.shift : ℚ) * roundUlp f a t := by
  rw [roundUlp, ← zpow_natCast, ← zpow_add₀ two_ne_zero]
  congr 1
  ring

/-- The magnitude lies below the end of its binade. -/
theorem scaled_lt (f : Fmt) (a : Nat) (t : Int) : (a : ℚ) * 2 ^ t < (2 : ℚ) ^ (roundExp f a t + 1) := by
  have h : (a : ℚ) < 2 ^ (a.log2 + 1) := by exact_mod_cast Nat.lt_log2_self
  calc (a : ℚ) * 2 ^ t < 2 ^ (a.log2 + 1) * 2 ^ t := by gcongr
    _ = (2 : ℚ) ^ ((a.log2 : Int) + t + 1) := by
      rw [← zpow_natCast, ← zpow_add₀ two_ne_zero]; congr 1; push_cast; ring
    _ ≤ (2 : ℚ) ^ (roundExp f a t + 1) := by
      gcongr
      · exact one_le_two
      · exact le_max_left ..

/-- Above the lowest binade the magnitude is at least the first value of its binade. -/
theorem le_scaled {a : Nat} {t : Int} (ha : a ≠ 0) (h : roundExp f a t ≠ f.emin) :
    (2 : ℚ) ^ roundExp f a t ≤ (a : ℚ) * 2 ^ t := by
  have hex : roundExp f a t = (a.log2 : Int) + t := by unfold roundExp at h ⊢; omega
  have h' : (2 : ℚ) ^ a.log2 ≤ a := by exact_mod_cast Nat.log2_self_le ha
  rw [hex, zpow_add₀ two_ne_zero, zpow_natCast]
  gcongr

/-- A quotient exactly half away from its rounding is a tie, so the rounding is even. -/
theorem nearestEven_even_of_half {a : Nat} {j : Int} (hj : 0 < j)
    (h : 2 * (nearestEven a j * 2 ^ j.toNat) = 2 * a + 2 ^ j.toNat ∨
      2 * a = 2 * (nearestEven a j * 2 ^ j.toNat) + 2 ^ j.toNat) : nearestEven a j % 2 = 0 := by
  have hdm := Nat.div_add_mod' a (2 ^ j.toNat)
  refine nearestEven_tie a hj ?_
  rcases nearestEven_cases a hj with hk | hk <;> rw [hk] at h
  · omega
  · rw [Nat.add_mul, Nat.one_mul] at h
    omega

/-- The rounded quotient is at most half away, and at half way it is even. -/
theorem nearestEven_half (a : Nat) (j : Int) :
    |(nearestEven a j : ℚ) - a * 2 ^ (-j)| ≤ 1 / 2 ∧
      (|(nearestEven a j : ℚ) - a * 2 ^ (-j)| = 1 / 2 → nearestEven a j % 2 = 0) := by
  rcases le_or_gt j 0 with hj | hj
  · have hz : (nearestEven a j : ℚ) - a * 2 ^ (-j) = 0 := by
      rw [nearestEven_nonpos a hj, Nat.cast_mul, Nat.cast_pow, ← zpow_natCast, Int.toNat_of_nonneg (by omega),
        Nat.cast_ofNat, sub_self]
    rw [hz]
    norm_num
  · obtain ⟨hlo, hhi⟩ := nearestEven_error a hj
    have heven := nearestEven_even_of_half (a := a) hj
    have hpow : (2 : ℚ) ^ (-j) = (((2 ^ j.toNat : Nat) : ℚ))⁻¹ := by
      rw [zpow_neg, Nat.cast_pow, ← zpow_natCast, Int.toNat_of_nonneg hj.le, Nat.cast_ofNat]
    have hu : (0 : ℚ) < (2 ^ j.toNat : Nat) := by exact_mod_cast Nat.two_pow_pos _
    generalize nearestEven a j = k at *
    generalize 2 ^ j.toNat = u at *
    have habs : |(k : ℚ) - a * 2 ^ (-j)| = |(k : ℚ) * u - a| / u := by
      rw [hpow, ← abs_of_pos hu, ← abs_div, abs_of_pos hu]
      congr 1
      field_simp
    have hloq : 2 * (a : ℚ) ≤ 2 * (k * u) + u := by exact_mod_cast hlo
    have hhiq : 2 * ((k : ℚ) * u) ≤ 2 * a + u := by exact_mod_cast hhi
    rw [habs, div_le_div_iff₀ hu two_pos, div_eq_div_iff hu.ne' two_ne_zero]
    refine ⟨by rw [← le_div_iff₀ two_pos, abs_le]; constructor <;> linarith, fun h => heven ?_⟩
    rcases abs_cases ((k : ℚ) * u - a) with ⟨he, -⟩ | ⟨he, -⟩ <;> rw [he] at h
    · exact .inl (by exact_mod_cast (by linarith : 2 * ((k : ℚ) * u) = 2 * a + u))
    · exact .inr (by exact_mod_cast (by linarith : 2 * (a : ℚ) = 2 * (k * u) + u))

/-- A number at most half away from `x` is nearest to `x` among the integers; any other as near is half away too. -/
theorem abs_sub_le_of_le_half {x : ℚ} {k m : Int} (h : |(k : ℚ) - x| ≤ 1 / 2) :
    |(k : ℚ) - x| ≤ |(m : ℚ) - x| ∧ (m ≠ k → |(m : ℚ) - x| = |(k : ℚ) - x| → |(k : ℚ) - x| = 1 / 2) := by
  by_cases hmk : m = k
  · simp [hmk]
  · have h1 : (1 : ℚ) ≤ |(m : ℚ) - k| := by
      exact_mod_cast Int.one_le_abs (sub_ne_zero.mpr hmk)
    have h2 := abs_sub_le (m : ℚ) x k
    rw [abs_sub_comm x] at h2
    exact ⟨by linarith, fun _ he => by linarith⟩

/-- The rounding error in last places. -/
theorem roundSig_half (f : Fmt) (a : Nat) (t : Int) :
    |(roundSig f a t : ℚ) - a * 2 ^ t / roundUlp f a t| ≤ 1 / 2 ∧
      (|(roundSig f a t : ℚ) - a * 2 ^ t / roundUlp f a t| = 1 / 2 → roundSig f a t % 2 = 0) := by
  have h : (a : ℚ) * 2 ^ t / roundUlp f a t = a * 2 ^ (-(roundExp f a t - (f.shift : Int) - t)) := by
    rw [roundUlp, mul_div_assoc, ← zpow_sub₀ two_ne_zero]
    congr 2
    ring
  rw [h]
  exact nearestEven_half a _

/-- The rounded significand is at most `2^p`; the carry is needed only there. -/
theorem roundSig_le (f : Fmt) (a : Nat) (t : Int) : roundSig f a t ≤ 2 ^ f.p := by
  have hu := roundUlp_pos f a t
  have hx : (a : ℚ) * 2 ^ t / roundUlp f a t < 2 ^ f.p := by
    rw [div_lt_iff₀ hu]
    calc (a : ℚ) * 2 ^ t < _ := scaled_lt f a t
      _ = 2 ^ f.p * roundUlp f a t := by
        rw [zpow_add_one₀ two_ne_zero, two_zpow_roundExp, f.p_eq]; ring
  have hk : (roundSig f a t : ℚ) < 2 ^ f.p + 1 := by
    linarith [(abs_le.mp (roundSig_half f a t).1).2]
  exact Nat.lt_succ_iff.mp (by exact_mod_cast hk)

/-- Above the lowest binade the rounded significand is normal. -/
theorem le_roundSig {a : Nat} {t : Int} (ha : a ≠ 0) (h : roundExp f a t ≠ f.emin) : 2 ^ f.shift ≤ roundSig f a t := by
  have hx : (2 : ℚ) ^ f.shift ≤ a * 2 ^ t / roundUlp f a t := by
    rw [le_div_iff₀ (roundUlp_pos f a t), ← two_zpow_roundExp]
    exact le_scaled ha h
  have hk : (2 : ℚ) ^ f.shift < roundSig f a t + 1 := by
    linarith [(abs_le.mp (roundSig_half f a t).1).1]
  exact Nat.lt_succ_iff.mp (by exact_mod_cast hk)

/-- A magnitude that overflows rounds to `PINF`. -/
theorem roundAbs_of_overflows {a : Nat} {t : Int} (h : RoundOverflows f a t) : roundAbs f a t = f.pinf := by
  have hpack : ∀ {k : Nat} {ex : Int}, (f.bias : Int) < ex → packMagnitude f k ex = f.pinf := by
    intro k ex hex
    simp [packMagnitude, hex]
  unfold roundAbs
  rcases h with h | ⟨h, hk⟩
  · split
    · exact hpack (by omega)
    · exact hpack h
  · rw [if_pos hk]
    exact hpack (by omega)

/-- A magnitude that does not overflow rounds to the finite pattern of the rounded significand in its binade. -/
theorem roundAbs_of_not_overflows {a : Nat} {t : Int} (ha : a ≠ 0) (h : ¬ RoundOverflows f a t) :
    sign (roundAbs f a t) = false ∧ finite (roundAbs f a t) = true ∧
      magnitude (roundAbs f a t) = roundSig f a t * 2 ^ (roundExp f a t - f.emin).toNat ∧
      fracField (roundAbs f a t) % 2 = roundSig f a t % 2 := by
  have hlo := emin_le_roundExp f a t
  have hle := roundSig_le f a t
  have hmin : roundExp f a t = f.emin ∨ 2 ^ f.shift ≤ roundSig f a t := or_iff_not_imp_left.mpr (le_roundSig ha)
  obtain ⟨hhi, hcarry⟩ : roundExp f a t ≤ f.bias ∧ ¬ (roundExp f a t = f.bias ∧ roundSig f a t = 2 ^ f.p) := by
    unfold RoundOverflows at h; omega
  unfold roundAbs
  split
  next hk =>
    have hp := f.two_pow_p
    have heven : 2 ∣ 2 ^ f.shift := dvd_pow_self 2 f.shift_pos.ne'
    have hhalf : roundSig f a t / 2 = 2 ^ f.shift := by omega
    obtain ⟨hsign, hfin, hmag, hfrac⟩ := packMagnitude_spec (f := f) (k := 2 ^ f.shift) (ex := roundExp f a t + 1)
      (by omega) (by omega) (by have := Nat.two_pow_pos f.shift; omega) (.inr le_rfl)
    have hd : (roundExp f a t + 1 - f.emin).toNat = (roundExp f a t - f.emin).toNat + 1 := by omega
    rw [hhalf, hmag, hfrac, hd, hk, hp]
    exact ⟨hsign, hfin, by ring, by omega⟩
  next hk => exact packMagnitude_spec hlo hhi (by omega) hmin

/-- The carry out of the significand comes exactly from half a last place below `2^p` on: `2^p - 1` is odd, so a tie goes up. -/
theorem roundSig_eq_two_pow_p_iff (f : Fmt) (a : Nat) (t : Int) :
    roundSig f a t = 2 ^ f.p ↔ (2 : ℚ) ^ f.p - 1 / 2 ≤ a * 2 ^ t / roundUlp f a t := by
  obtain ⟨hhalf, htie⟩ := roundSig_half f a t
  obtain ⟨hlo, hhi⟩ := abs_le.mp hhalf
  have hle := roundSig_le f a t
  have hp := f.two_pow_p
  generalize (a : ℚ) * 2 ^ t / roundUlp f a t = x at *
  constructor
  · intro hk
    rw [hk] at hhi
    push_cast at hhi
    linarith
  · intro hx
    by_contra hne
    have hlt : (roundSig f a t : ℚ) + 1 ≤ 2 ^ f.p := by exact_mod_cast Nat.lt_of_le_of_ne hle hne
    have hdist : (roundSig f a t : ℚ) - x = -(1 / 2) := by linarith
    have hodd : (roundSig f a t : ℚ) + 1 = 2 ^ f.p := by linarith
    have hodd' : roundSig f a t + 1 = 2 ^ f.p := by exact_mod_cast hodd
    have heven := htie (by rw [hdist]; norm_num)
    omega

/-- Halfway above the largest finite value lies within the last binade of the format. -/
theorem overflow_bound_mem (f : Fmt) :
    (2 : ℚ) ^ (f.bias : Int) ≤ (2 - (2 : ℚ) ^ (-(f.p : Int))) * (2 : ℚ) ^ (f.bias : Int) ∧
      (2 - (2 : ℚ) ^ (-(f.p : Int))) * (2 : ℚ) ^ (f.bias : Int) ≤ (2 : ℚ) ^ ((f.bias : Int) + 1) := by
  have hpos : (0 : ℚ) < 2 ^ (-(f.p : Int)) := zpow_pos two_pos _
  have hle : (2 : ℚ) ^ (-(f.p : Int)) ≤ 1 := zpow_le_one_of_nonpos₀ one_le_two (by omega)
  have hB : (0 : ℚ) < 2 ^ (f.bias : Int) := zpow_pos two_pos _
  rw [zpow_add_one₀ two_ne_zero]
  constructor <;> nlinarith

/-- Overflow begins exactly halfway above the largest finite value. -/
theorem roundOverflows_iff {a : Nat} (t : Int) (ha : a ≠ 0) :
    RoundOverflows f a t ↔ (2 - (2 : ℚ) ^ (-(f.p : Int))) * (2 : ℚ) ^ (f.bias : Int) ≤ (a : ℚ) * 2 ^ t := by
  obtain ⟨hge, hle⟩ := overflow_bound_mem f
  rcases lt_trichotomy (roundExp f a t) (f.bias : Int) with hex | hex | hex
  · have hbelow : (a : ℚ) * 2 ^ t < 2 ^ (f.bias : Int) :=
      (scaled_lt f a t).trans_le (zpow_le_zpow_right₀ one_le_two (by omega))
    have hno : ¬ RoundOverflows f a t := by unfold RoundOverflows; omega
    exact iff_of_false hno (hbelow.trans_le hge).not_ge
  · have hbound : (2 - (2 : ℚ) ^ (-(f.p : Int))) * (2 : ℚ) ^ (f.bias : Int) = (2 ^ f.p - 1 / 2) * roundUlp f a t := by
      rw [← hex, two_zpow_roundExp, zpow_neg, zpow_natCast, f.p_eq]
      field_simp
      ring
    have hov : RoundOverflows f a t ↔ roundSig f a t = 2 ^ f.p := by
      unfold RoundOverflows; omega
    rw [hov, hbound, ← le_div_iff₀ (roundUlp_pos f a t), roundSig_eq_two_pow_p_iff]
  · have habove : (2 : ℚ) ^ ((f.bias : Int) + 1) ≤ a * 2 ^ t :=
      (zpow_le_zpow_right₀ one_le_two hex).trans (le_scaled ha (f.emin_le_bias.trans_lt hex).ne')
    exact iff_of_true (.inl hex) (hle.trans habove)

/-! ### The nearest finite pattern -/

/-- In last places of the binade of `a · 2^t`, every finite value is whole or lies below the binade. -/
theorem valRat_whole_or_below (b : Bits f) {a : Nat} (t : Int) (ha : a ≠ 0) :
    (∃ m : Int, valRat b = m * roundUlp f a t) ∨
      |valRat b| < 2 ^ f.shift * roundUlp f a t ∧ 2 ^ f.shift * roundUlp f a t ≤ (a : ℚ) * 2 ^ t := by
  have hunit : (0 : ℚ) < 2 ^ f.unit := zpow_pos two_pos _
  have hwhole : ∀ {d : Nat}, roundUlp f a t = ((2 ^ d : Nat) : ℚ) * 2 ^ f.unit → 2 ^ d ∣ magnitude b →
      ∃ m : Int, valRat b = m * roundUlp f a t := by
    rintro d hd ⟨c, hc⟩
    refine ⟨(if sign b then -1 else 1) * c, ?_⟩
    rw [valRat_eq, hd, hc]
    push_cast
    ring
  by_cases hex : roundExp f a t = f.emin
  · exact .inl (hwhole (d := 0) (by simp [roundUlp_eq, hex]) (by simp))
  · rcases magnitude_lt_or_dvd b (roundExp f a t - f.emin).toNat with h | h
    · right
      constructor
      · have hq : (magnitude b : ℚ) < 2 ^ f.shift * ((2 ^ (roundExp f a t - f.emin).toNat : Nat) : ℚ) := by
          rw [pow_add] at h; exact_mod_cast h
        rw [abs_valRat, roundUlp_eq, ← mul_assoc]
        gcongr
      · rw [← two_zpow_roundExp]
        exact le_scaled ha hex
    · exact .inl (hwhole (roundUlp_eq f a t) h)

/-- No value that is whole in last places or lies below the binade is nearer to `a · 2^t` than the rounded significand, and
where another is as near the significand is even. -/
theorem roundSig_nearest_abs {a : Nat} {t : Int} {v : ℚ}
    (hv : (∃ m : Int, v = m * roundUlp f a t) ∨
      |v| < 2 ^ f.shift * roundUlp f a t ∧ 2 ^ f.shift * roundUlp f a t ≤ (a : ℚ) * 2 ^ t) :
    |(roundSig f a t : ℚ) * roundUlp f a t - a * 2 ^ t| ≤ |v - a * 2 ^ t| ∧
      (|v - a * 2 ^ t| = |(roundSig f a t : ℚ) * roundUlp f a t - a * 2 ^ t| → v ≠ roundSig f a t * roundUlp f a t →
        roundSig f a t % 2 = 0) := by
  have hu := roundUlp_pos f a t
  obtain ⟨hhalf, htie⟩ := roundSig_half f a t
  obtain ⟨x, hx⟩ : ∃ x : ℚ, (a : ℚ) * 2 ^ t = x * roundUlp f a t := ⟨_, (div_mul_cancel₀ _ hu.ne').symm⟩
  rw [hx, mul_div_cancel_right₀ _ hu.ne'] at hhalf htie
  rw [hx] at hv ⊢
  generalize roundSig f a t = k at *
  generalize roundUlp f a t = u at *
  have hscale : ∀ y : ℚ, |y * u - x * u| = |y - x| * u := fun y => by rw [← sub_mul, abs_mul, abs_of_pos hu]
  have hnear := fun m : Int => abs_sub_le_of_le_half (k := (k : Int)) (m := m) hhalf
  rw [hscale]
  rcases hv with ⟨m, rfl⟩ | ⟨hlt, hle⟩
  · obtain ⟨hmin, hother⟩ := hnear m
    rw [hscale]
    refine ⟨mul_le_mul_of_nonneg_right hmin hu.le, fun heq hne => htie ?_⟩
    exact hother (fun hmk => hne (by rw [hmk, Int.cast_natCast])) (mul_right_cancel₀ hu.ne' heq)
  · have hfirst : (2 : ℚ) ^ f.shift ≤ x := le_of_mul_le_mul_right hle hu
    have hmin : |(k : ℚ) - x| ≤ x - 2 ^ f.shift := by
      have h := (hnear (2 ^ f.shift)).1
      rwa [Int.cast_pow, Int.cast_ofNat, Int.cast_natCast, abs_sub_comm ((2 : ℚ) ^ f.shift),
        abs_of_nonneg (sub_nonneg.mpr hfirst)] at h
    have hfar : |(k : ℚ) - x| * u < |v - x * u| := by
      calc |(k : ℚ) - x| * u ≤ (x - 2 ^ f.shift) * u := mul_le_mul_of_nonneg_right hmin hu.le
        _ < x * u - v := by linarith [(abs_lt.mp hlt).2]
        _ ≤ |v - x * u| := by rw [abs_sub_comm]; exact le_abs_self _
    exact ⟨hfar.le, fun heq => absurd heq hfar.ne'⟩

/-- The same for `n · 2^t` of either sign, among the values of the format. -/
theorem roundSig_nearest {n : Int} (hn : n ≠ 0) (t : Int) (b : Bits f) :
    |(n.sign : ℚ) * (roundSig f n.natAbs t * roundUlp f n.natAbs t) - n * 2 ^ t| ≤ |valRat b - n * 2 ^ t| ∧
      (|valRat b - n * 2 ^ t| = |(n.sign : ℚ) * (roundSig f n.natAbs t * roundUlp f n.natAbs t) - n * 2 ^ t| →
        valRat b ≠ n.sign * (roundSig f n.natAbs t * roundUlp f n.natAbs t) → roundSig f n.natAbs t % 2 = 0) := by
  have hb := valRat_whole_or_below b t (Int.natAbs_ne_zero.mpr hn)
  rcases lt_or_gt_of_ne hn with hneg | hpos
  · have hna : (n : ℚ) = -(n.natAbs : ℚ) := by
      rw [Nat.cast_natAbs, abs_of_neg hneg, Int.cast_neg, neg_neg]
    have hflip : ∀ v q : ℚ, |v - -q| = |-v - q| := fun v q => by rw [← abs_neg]; congr 1; ring
    have h := roundSig_nearest_abs (v := -valRat b) (hb.imp (fun ⟨m, hm⟩ => ⟨-m, by rw [hm, Int.cast_neg, neg_mul]⟩)
      (fun h => by rwa [abs_neg]))
    rw [Int.sign_eq_neg_one_of_neg hneg, Int.cast_neg, Int.cast_one, neg_one_mul, hna, neg_mul, hflip, hflip, neg_neg]
    exact ⟨h.1, fun heq hne => h.2 heq (fun h' => hne (neg_eq_iff_eq_neg.mp h'))⟩
  · have hna : (n : ℚ) = n.natAbs := by rw [Nat.cast_natAbs, abs_of_pos hpos]
    rw [Int.sign_eq_one_of_pos hpos, Int.cast_one, one_mul, hna]
    exact roundSig_nearest_abs hb

/-! ### The signed rounding -/

/-- `RN_T` of zero is the zero of the sign asked for. -/
theorem roundNE_zero_spec (f : Fmt) (t : Int) (zs : Bool) :
    sign (roundNE f 0 t zs) = zs ∧ finite (roundNE f 0 t zs) = true ∧ valRat (roundNE f 0 t zs) = 0 := by
  obtain ⟨hfin, hsign, hmag⟩ := zero_pattern f zs
  rw [roundNE_zero]
  exact ⟨hsign, hfin, by simp [valRat_eq, hmag]⟩

/-- The sign of `RN_T` of a value that is not zero. -/
theorem sign_roundNE {n : Int} (hn : n ≠ 0) (t : Int) (zs : Bool) : sign (roundNE f n t zs) = decide (n < 0) := by
  have habs : sign (roundAbs f n.natAbs t) = false := by
    by_cases h : RoundOverflows f n.natAbs t
    · rw [roundAbs_of_overflows h]; exact (finf_pinf f).2
    · exact (roundAbs_of_not_overflows (Int.natAbs_ne_zero.mpr hn) h).1
  rw [roundNE_of_ne_zero hn]
  split <;> simp [*]

/-- `RN_T` of a value that overflows is an infinity. -/
theorem finf_roundNE {n t : Int} (hn : n ≠ 0) (zs : Bool) (h : RoundOverflows f n.natAbs t) :
    finf (roundNE f n t zs) = true := by
  rw [roundNE_of_ne_zero hn, roundAbs_of_overflows h]
  split <;> simp [finf_pinf]

/-- `RN_T` of a value that is not zero and does not overflow: the rounded significand in its binade, with the sign. -/
theorem roundNE_of_not_overflows {n t : Int} (hn : n ≠ 0) (zs : Bool) (h : ¬ RoundOverflows f n.natAbs t) :
    finite (roundNE f n t zs) = true ∧
      valRat (roundNE f n t zs) = n.sign * (roundSig f n.natAbs t * roundUlp f n.natAbs t) ∧
      fracField (roundNE f n t zs) % 2 = roundSig f n.natAbs t % 2 := by
  obtain ⟨-, hfin, hmag, hfrac⟩ := roundAbs_of_not_overflows (Int.natAbs_ne_zero.mpr hn) h
  have hmag' : magnitude (roundNE f n t zs) = magnitude (roundAbs f n.natAbs t) := by
    rw [roundNE_of_ne_zero hn]; split <;> simp
  refine ⟨?_, ?_, ?_⟩
  · rw [roundNE_of_ne_zero hn]; split <;> simpa using hfin
  · rw [valRat_eq, sign_roundNE hn, hmag', hmag, roundUlp_eq]
    rcases hn.lt_or_gt with hneg | hpos
    · simp [hneg, Int.sign_eq_neg_one_of_neg hneg, mul_assoc]
    · simp [hpos.le.not_gt, Int.sign_eq_one_of_pos hpos, mul_assoc]
  · rw [roundNE_of_ne_zero hn]; split <;> simpa using hfrac

/-- Settles O47: a zero by itself; any other value overflows exactly from halfway on, and below that its rounded
significand is nearest, even on a tie. -/
theorem roundsToNearestEven : Obligations.RoundsToNearestEven := by
  unfold Obligations.RoundsToNearestEven
  intro f n t zs
  dsimp only
  by_cases hn : n = 0
  · subst hn
    obtain ⟨hsign, hfin, hval⟩ := roundNE_zero_spec f t zs
    have hbound := (zpow_pos (two_pos : (0 : ℚ) < 2) (f.bias : Int)).trans_le (overflow_bound_mem f).1
    rw [hval, hsign, finf_of_finite hfin, Int.cast_zero, zero_mul, abs_zero]
    refine ⟨fnan_of_finite hfin, rfl, by simpa using hbound, fun _ b _ => ?_⟩
    rw [sub_self, abs_zero, sub_zero]
    exact ⟨abs_nonneg _, fun h0 hne => absurd (abs_eq_zero.mp h0) hne⟩
  · have ha : n.natAbs ≠ 0 := Int.natAbs_ne_zero.mpr hn
    have hqabs : |(n : ℚ) * 2 ^ t| = n.natAbs * 2 ^ t := by
      rw [abs_mul, abs_of_pos (zpow_pos (two_pos : (0 : ℚ) < 2) t), Nat.cast_natAbs, Int.cast_abs]
    rw [hqabs, ← roundOverflows_iff t ha, if_neg hn]
    by_cases hov : RoundOverflows f n.natAbs t
    · have hinf := finf_roundNE hn zs hov
      obtain ⟨hnan, hnfin⟩ : fnan (roundNE f n t zs) = false ∧ finite (roundNE f n t zs) = false := by
        rcases class_cases (roundNE f n t zs) with h | h | h <;> simp_all
      exact ⟨hnan, sign_roundNE hn t zs, iff_of_true hinf hov, fun h => absurd h (by simp [hnfin])⟩
    · obtain ⟨hfin, hval, hfrac⟩ := roundNE_of_not_overflows hn zs hov
      refine ⟨fnan_of_finite hfin, sign_roundNE hn t zs, iff_of_false (by simp [finf_of_finite hfin]) hov, fun _ b _ => ?_⟩
      rw [hval, hfrac]
      exact roundSig_nearest hn t b

end Sys2Proof.Machine
end

section
/-! PROOFS. The step and its invariant (spec/10_state.md R33 to R36): everything a step can do with the response it owes, the
invariant along every step, what a run still has to do, and boot. -/

namespace Sys2Proof.Machine

open Sys2Proof.Safety

/-! ### What a step can do -/

/-- Every state has a next one. -/
theorem step_total (s : State) : ∃ t, step s = .next t := by
  unfold step
  cases s.nextMove with
  | reset => exact ⟨_, rfl⟩
  | accept c => exact ⟨_, rfl⟩
  | respond c => exact ⟨_, exec_decode c (dequeue s)⟩
  | idle => exact ⟨_, rfl⟩

/-- `step_cases` with the response named: a served command is answered by what the block owes it. -/
theorem step_cases_answer {s t : State} (h : step s = .next t) :
    (s.portIn.rstN = false ∧ t = resetStep s) ∨
    (s.portIn.rstN = true ∧ s.portIn.cmdValid = true ∧ s.q.length < s.cfg.qdepth ∧
      t = acceptStep ⟨s.portIn.cmdOp, s.portIn.cmdVs⟩ s) ∨
    (∃ c rest, s.portIn.rstN = true ∧ s.q = c :: rest ∧ t = emit (answer s.cfg c) (dequeue s)) ∨
    (s.portIn.rstN = true ∧ (s.portIn.cmdValid = true → s.cfg.qdepth ≤ s.q.length) ∧ s.q = [] ∧ t = idleStep s) := by
  rcases step_cases h with hreset | haccept | ⟨hr, -, c, r, hq, he, rfl⟩ | hidle
  · exact .inl hreset
  · exact .inr (.inl haccept)
  · obtain ⟨rest, hrest⟩ := List.head?_eq_some_iff.mp hq
    rw [exec_decode, Host.Outcome.next.injEq] at he
    exact .inr (.inr (.inl ⟨c, rest, hr, hrest, he.symm⟩))
  · exact .inr (.inr (.inr hidle))

/-- The step taken when `rst_n` is sampled 0 (R230). -/
theorem step_of_reset {s : State} (h : s.portIn.rstN = false) : step s = .next (resetStep s) := by
  rw [step, nextMove_of_reset h]

/-- No step writes the configuration (R46). -/
theorem cfg_of_step {s t : State} (h : step s = .next t) : t.cfg = s.cfg := by
  rcases step_cases_answer h with ⟨-, rfl⟩ | ⟨-, -, -, rfl⟩ | ⟨c, rest, -, -, rfl⟩ | ⟨-, -, -, rfl⟩ <;> rfl

/-- The output ports on which a response is shown (R33). -/
theorem ports_emit (r : Response) (s : State) :
    (emit r s).rspValid = true ∧ (emit r s).rspVd = r.vd ∧ (emit r s).rspIllegal = r.illegal := ⟨rfl, rfl, rfl⟩

/-- `rsp_valid` is 0 without a response on the port (R33). -/
theorem rspValid_of_rsp_none {s : State} (h : s.rsp = none) : s.rspValid = false := by
  rw [State.rspValid, h]; rfl

/-! ### The invariant -/

/-- The response owed to an illegal word carries the zero vector (R212). -/
theorem vd_answer_of_illegal (cfg : Config) (c : Command) (h : (answer cfg c).illegal = true) :
    (answer cfg c).vd = 0 := by
  unfold answer at h ⊢
  split at h
  · cases h
  · rw [if_neg ‹_›]

/-- A move that delivers nothing keeps the invariant when it keeps the queue within its capacity. -/
theorem inv_of_no_response {s t : State} (hi : Inv s) (hq : t.q.length ≤ t.cfg.qdepth) (hr : t.rsp = none)
    (ho : t.out = s.out) : Inv t where
  queueBound := hq
  portIsLast r h := by rw [hr] at h; cases h
  illegalIsZero r h := hi.illegalIsZero r (ho ▸ h)

/-- Taking the head command off the queue keeps the invariant. -/
theorem inv_dequeue {s : State} (hi : Inv s) : Inv (dequeue s) where
  queueBound := by
    have h := hi.queueBound
    rw [dequeue_q, dequeue_cfg, List.length_tail]
    omega
  portIsLast := hi.portIsLast
  illegalIsZero := hi.illegalIsZero

/-- Emitting a response that is zero where it is illegal keeps the invariant. -/
theorem inv_emit {s : State} (hi : Inv s) {r : Response} (hz : r.illegal = true → r.vd = 0) : Inv (emit r s) where
  queueBound := hi.queueBound
  portIsLast r' h := by
    rw [emit_rsp] at h
    rw [emit_out, List.getLast?_concat, h]
  illegalIsZero r' h := by
    rw [emit_out, List.mem_append, List.mem_singleton] at h
    rcases h with h | rfl
    · exact hi.illegalIsZero r' h
    · exact hz

/-- Settles O23: move by move; only `accept` lengthens the queue and only `respond` delivers. -/
theorem stepKeepsInvariant : Obligations.StepKeepsInvariant := by
  unfold Obligations.StepKeepsInvariant
  intro s t hi h
  rcases step_cases_answer h with ⟨-, rfl⟩ | ⟨-, -, hroom, rfl⟩ | ⟨c, rest, -, -, rfl⟩ | ⟨-, -, -, rfl⟩
  · exact inv_of_no_response hi (Nat.zero_le _) rfl rfl
  · exact inv_of_no_response hi (by simpa using hroom) rfl rfl
  · exact inv_emit (inv_dequeue hi) (vd_answer_of_illegal s.cfg c)
  · exact inv_of_no_response hi hi.queueBound rfl rfl

/-- Settles O22: nothing is queued, shown or delivered after reset. -/
theorem invariantAtReset : Obligations.InvariantAtReset where
  queueBound := Nat.zero_le _
  portIsLast r h := by cases h
  illegalIsZero r h := by cases h

/-! ### The statements on one step -/

/-- Settles O14: the moves of `step_cases_answer`, the reset excluded. -/
theorem stepIsAcceptOrRespond : Obligations.StepIsAcceptOrRespond := by
  unfold Obligations.StepIsAcceptOrRespond
  intro s hr
  refine ⟨by rw [State.cmdReady, hr, Bool.true_and], ?_⟩
  obtain ⟨t, h⟩ := step_total s
  refine ⟨t, h, ?_⟩
  rcases step_cases_answer h with ⟨hreset, -⟩ | ⟨-, hv, hroom, rfl⟩ | ⟨c, rest, -, hq, rfl⟩ | ⟨-, -, hq, rfl⟩
  · rw [hr] at hreset; cases hreset
  · exact .inl ⟨hroom, hv, rfl, rspValid_of_rsp_none rfl, rfl, rfl⟩
  · exact .inr (.inl ⟨c, rest, hq, by rw [emit_q, dequeue_q, hq, List.tail_cons], rfl, ports_emit _ _⟩)
  · exact .inr (.inr ⟨hq, hq, rspValid_of_rsp_none rfl, rfl⟩)

/-- The response owed to a command reads the ROM of the command's format only (R40). -/
theorem answer_congr {cfg₁ cfg₂ : Config} {c : Command} (h : cfg₁.rom (opFormat c.op) = cfg₂.rom (opFormat c.op)) :
    answer cfg₁ c = answer cfg₂ c := by
  unfold answer
  rw [h]

/-- Settles O20: both steps emit the response owed to the command, which reads one ROM. -/
theorem responseDependsOnCommandAndItsRom : Obligations.ResponseDependsOnCommandAndItsRom := by
  unfold Obligations.ResponseDependsOnCommandAndItsRom
  intro s₁ s₂ c h₁ h₂ hrom
  refine ⟨answer s₁.cfg c, _, _, step_of_respond h₁, step_of_respond h₂, rfl, ?_, rfl, ?_⟩ <;>
    rw [answer_congr hrom] <;> rfl

/-- Decoding undoes encoding on well-formed instructions (R55, R61). -/
theorem decode_encode {i : Instr} (h : i.wf = true) : decode (encode i) = i := by
  cases i with
  | illegalAlg1 op vs =>
    have halg : algField op = 1 := by
      revert h
      rw [Instr.wf]
      revert op
      decide
    rw [encode, decode, if_pos halg]
  | _ => simp [encode, decode, algField, fmtField, vlField]

/-- Settles O13: the served command decodes to the instruction it encodes. -/
theorem stepRunsTheHeadCommand : Obligations.StepRunsTheHeadCommand := by
  unfold Obligations.StepRunsTheHeadCommand
  intro s i rest hwf hq hr hfull
  have hmove : s.nextMove = .respond (encode i) := nextMove_respond_iff.mpr ⟨hr, hfull, by rw [hq, List.head?_cons]⟩
  rw [step, hmove]
  simp only [decode_encode hwf, dequeue, hq, List.tail_cons, State.hostAfterTurn]

/-- Settles O18: the fields of the reset state. -/
theorem resetStateAsSpecified : Obligations.ResetStateAsSpecified := ⟨rfl, rfl, rfl, rfl, rfl, rfl⟩

/-- Settles O21: on a reset edge the whole port goes unread; with no command presented the move is chosen by the queue. -/
theorem operandPortsIgnoredWhenIdle : Obligations.OperandPortsIgnoredWhenIdle := by
  unfold Obligations.OperandPortsIgnoredWhenIdle
  intro s p rest op vs h
  rcases Bool.eq_false_or_eq_true p.rstN with hr | hr
  · have hv : p.cmdValid = false := h.resolve_left (by simp [hr])
    cases s.q <;>
      simp [step, State.nextMove, State.portIn, State.hostAfterTurn, idleStep, dequeue, State.noResponse, hr, hv]
  · exact (step_of_reset (s := { s with host := { p with cmdOp := op, cmdVs := vs } :: rest }) hr).trans
      (step_of_reset (s := { s with host := p :: rest }) hr).symm

/-! ### Runs without reset -/

/-- What the host will present starts with what it presents on the coming edge. -/
theorem presented_host (s : State) :
    presented s.host =
      (if s.portIn.cmdValid then [⟨s.portIn.cmdOp, s.portIn.cmdVs⟩] else []) ++ presented s.host.tail := by
  cases h : s.host with
  | nil => rw [portIn_of_host_nil h]; rfl
  | cons p rest =>
    cases hv : p.cmdValid <;> simp [portIn_of_host_cons h, presented, hv]

/-- A turn of the kernel takes no command from the host (R234). -/
theorem presented_hostAfterTurn (s : State) : presented s.hostAfterTurn = presented s.host := by
  rw [State.hostAfterTurn, presented_host s]
  split
  · rw [presented_host s, if_pos ‹_›]
  · rfl

/-- Without reset a step does not change what the host will have been given (R66, R235, R236). -/
theorem owed_of_step {s t : State} (hr : s.portIn.rstN = true) (h : step s = .next t) : owed t = owed s := by
  rcases step_cases_answer h with ⟨hreset, -⟩ | ⟨-, hv, -, rfl⟩ | ⟨c, rest, -, hq, rfl⟩ | ⟨-, -, hq, rfl⟩
  · rw [hr] at hreset; cases hreset
  · simp [owed, presented_host s, hv]
  · simp [owed, presented_hostAfterTurn, hq]
  · simp [owed, presented_hostAfterTurn]

/-- A step leaves the host's edges or uses up one. -/
theorem host_of_step {s t : State} (h : step s = .next t) : t.host = s.host ∨ t.host = s.host.tail := by
  have hturn : s.hostAfterTurn = s.host ∨ s.hostAfterTurn = s.host.tail := by
    unfold State.hostAfterTurn; split <;> simp
  rcases step_cases_answer h with ⟨-, rfl⟩ | ⟨-, -, -, rfl⟩ | ⟨c, rest, -, -, rfl⟩ | ⟨-, -, -, rfl⟩
  · exact .inr rfl
  · exact .inr rfl
  · exact hturn
  · exact hturn

/-- With no reset ahead none is asserted on the coming edge. -/
theorem rstN_of_noReset {s : State} (h : noReset s.host = true) : s.portIn.rstN = true := by
  cases hs : s.host with
  | nil => rw [portIn_of_host_nil hs]; rfl
  | cons p rest =>
    rw [hs, noReset, List.all_cons, Bool.and_eq_true] at h
    rw [portIn_of_host_cons hs, h.1]

/-- No step puts a reset ahead. -/
theorem noReset_of_step {s t : State} (hs : noReset s.host = true) (h : step s = .next t) : noReset t.host = true := by
  have hall : ∀ p ∈ s.host, p.rstN = true := by simpa [noReset] using hs
  have hsub : ∀ p ∈ t.host, p ∈ s.host := by
    rcases host_of_step h with hh | hh <;> rw [hh]
    · exact fun p hp => hp
    · exact fun p hp => List.mem_of_mem_tail hp
  simpa [noReset] using fun p hp => hall p (hsub p hp)

/-- A bound on the moves left: an edge of the host may bring a command, which is then served. -/
def workLeft (s : State) : Nat := 2 * s.host.length + s.q.length

/-- A host that presents a command has an edge left. -/
theorem host_length_pos_of_cmdValid {s : State} (h : s.portIn.cmdValid = true) : 0 < s.host.length := by
  rw [List.length_pos_iff]
  intro hs
  rw [portIn_of_host_nil hs] at h
  cases h

/-- A turn of the kernel adds no edge. -/
theorem length_hostAfterTurn_le (s : State) : s.hostAfterTurn.length ≤ s.host.length := by
  unfold State.hostAfterTurn
  split <;> simp

/-- With room for one command and no reset, every step that has something to do leaves less to do. -/
theorem workLeft_step_lt {s t : State} (hroom : 1 ≤ s.cfg.qdepth) (hr : s.portIn.rstN = true) (hw : workLeft s ≠ 0)
    (h : step s = .next t) : workLeft t < workLeft s := by
  unfold workLeft at *
  rcases step_cases_answer h with ⟨hreset, -⟩ | ⟨-, hv, -, rfl⟩ | ⟨c, rest, -, hq, rfl⟩ | ⟨-, hfull, hq, rfl⟩
  · rw [hr] at hreset; cases hreset
  · have hpos := host_length_pos_of_cmdValid hv
    rw [acceptStep_host, acceptStep_q, List.length_tail, List.length_append, List.length_singleton]
    omega
  · have hle := length_hostAfterTurn_le s
    rw [emit_host, emit_q, dequeue_host, dequeue_q, hq, List.tail_cons, List.length_cons]
    omega
  · have hv : ¬ s.portIn.cmdValid = true := fun hv => by
      have hle := hfull hv
      rw [hq, List.length_nil] at hle
      omega
    rw [hq, List.length_nil] at hw
    rw [idleStep_host, idleStep_q, State.hostAfterTurn, if_neg hv, List.length_tail, hq, List.length_nil]
    omega

/-- A run whose first step is known. -/
theorem run_succ_of_step (M : Host.Core) {s t : M.State} (h : M.step s = .next t) (n : Nat) :
    M.run (n + 1) s = M.run n t := by
  rw [Host.Core.run, h]

/-- A run of at most the moves left ends with nothing to do, owing what was owed. -/
theorem run_finishes (w : Nat) (s : State) (hw : workLeft s ≤ w) (hroom : 1 ≤ s.cfg.qdepth)
    (hreset : noReset s.host = true) :
    ∃ n ≤ w, ∃ t, Host.Core.run core n s = .next t ∧ workLeft t = 0 ∧ owed t = owed s := by
  induction w generalizing s with
  | zero => exact ⟨0, le_rfl, s, rfl, Nat.le_zero.mp hw, rfl⟩
  | succ w ih =>
    by_cases hdone : workLeft s = 0
    · exact ⟨0, Nat.zero_le _, s, rfl, hdone, rfl⟩
    · obtain ⟨t, h⟩ := step_total s
      have hr := rstN_of_noReset hreset
      have hlt := workLeft_step_lt hroom hr hdone h
      obtain ⟨n, hn, u, hrun, hend, howed⟩ :=
        ih t (by omega) (by rwa [cfg_of_step h]) (noReset_of_step hreset h)
      exact ⟨n + 1, Nat.succ_le_succ hn, u, (run_succ_of_step core h n).trans hrun, hend, howed.trans (owed_of_step hr h)⟩

/-- Settles O26: the run of `run_finishes` ends with no edge and no command left, so what is owed there is what was
delivered. -/
theorem everyCommandIsAnswered : Obligations.EveryCommandIsAnswered := by
  unfold Obligations.EveryCommandIsAnswered
  intro s hroom hreset
  obtain ⟨n, hn, t, hrun, hend, howed⟩ := run_finishes (workLeft s) s le_rfl hroom hreset
  obtain ⟨hhost, hq⟩ : t.host = [] ∧ t.q = [] := by simpa [workLeft] using hend
  refine ⟨n, hn, t, hrun, hq, hhost, ?_⟩
  have hout : owed t = t.out := by simp [owed, hhost, hq, presented]
  exact hout.symm.trans howed

/-! ### Boot -/

/-- Settles O57: the reference image passes the checks by evaluation; `boot` is the check and nothing else. -/
theorem bootAcceptsExactlyAdmissible : Obligations.BootAcceptsExactlyAdmissible := by
  refine ⟨by decide +kernel, fun c => ⟨fun h => ?_, fun h => ?_⟩⟩ <;> rw [boot, h] <;> rfl

end Sys2Proof.Machine
end

section
/-! PROOFS. The reference thresholds (spec/10_state.md R24): `ln 2` to twenty places, and the gap between a value of the format
and the next one above it. -/

namespace Sys2Proof.Machine

variable {f : Fmt}

/-- The value counts in units of the smallest subnormal (R71). -/
theorem valRat_eq_val (b : Bits f) : valRat b = val b * (2 : ℚ) ^ f.unit := by
  rw [valRat_eq, val_eq]
  split <;> push_cast <;> ring

/-- Above a positive normal value nothing lies within one last place. -/
theorem val_le_or_next_le {a : Bits f} (b : Bits f) (hs : sign a = false) (he : expField a ≠ 0) :
    val b ≤ val a ∨ val a + 2 ^ (expField a - 1) ≤ val b := by
  rw [or_iff_not_imp_left, not_le]
  intro hlt
  have ha : val a = magnitude a := by simp [val_eq, hs]
  have hma : magnitude a = (2 ^ f.shift + fracField a) * 2 ^ (expField a - 1) := if_neg he
  have hb : val b = magnitude b := by
    have h := val_eq b
    split at h <;> omega
  have hlt' : magnitude a < magnitude b := by omega
  obtain ⟨k, hk⟩ : 2 ^ (expField a - 1) ∣ magnitude b := by
    refine (magnitude_lt_or_dvd b (expField a - 1)).resolve_left (not_lt.mpr (le_trans ?_ hlt'.le))
    rw [hma, pow_add]
    exact Nat.mul_le_mul_right _ (Nat.le_add_right ..)
  have hnext : 2 ^ f.shift + fracField a + 1 ≤ k := by
    rw [hma, hk, Nat.mul_comm] at hlt'
    exact Nat.lt_of_mul_lt_mul_left hlt'
  have hle : magnitude a + 2 ^ (expField a - 1) ≤ magnitude b := by
    calc magnitude a + 2 ^ (expField a - 1) = 2 ^ (expField a - 1) * (2 ^ f.shift + fracField a + 1) := by rw [hma]; ring
      _ ≤ magnitude b := hk ▸ Nat.mul_le_mul_left _ hnext
  rw [ha, hb]
  exact_mod_cast hle

/-- `ln 2` to twenty places, from the series of `ln ((1 + x) / (1 - x))` at `x = 1/3`. -/
theorem log_two_bounds :
    (0.69314718055994530941 : ℝ) < Real.log 2 ∧ Real.log 2 < 0.69314718055994530942 := by
  have hlo := Real.sum_range_le_log_div (x := 1 / 3) (by norm_num) (by norm_num) 22
  have hhi := Real.log_div_le_sum_range_add (x := 1 / 3) (by norm_num) (by norm_num) 22
  rw [show ((1 : ℝ) + 1 / 3) / (1 - 1 / 3) = 2 by norm_num] at hlo hhi
  norm_num [Finset.sum_range_succ] at hlo hhi
  constructor <;> linarith

/-- The reference `THRESHOLD_1` is below `(emax + 1) · ln 2` by at most its last place. -/
theorem reference_threshold1_bracket (f : Fmt) :
    ((valRat (referenceRom f).threshold1 : ℚ) : ℝ) < ((f.bias : ℝ) + 1) * Real.log 2 ∧
      ((f.bias : ℝ) + 1) * Real.log 2 ≤
        ((valRat (referenceRom f).threshold1 +
          2 ^ (((expField (referenceRom f).threshold1 - 1 : Nat) : Int) + f.unit) : ℚ) : ℝ) := by
  obtain ⟨hlo, hhi⟩ := log_two_bounds
  cases f with
  | binary32 =>
    have hv : valRat (referenceRom .binary32).threshold1 = 11629079 / 2 ^ 17 := by decide +kernel
    have hu : ((expField (referenceRom .binary32).threshold1 - 1 : Nat) : Int) + Fmt.unit .binary32 = -17 := by
      decide +kernel
    rw [hv, hu]
    norm_num [Fmt.bias, zpow_neg]
    constructor <;> linarith
  | binary64 =>
    have hv : valRat (referenceRom .binary64).threshold1 = 6243314768165359 / 2 ^ 43 := by decide +kernel
    have hu : ((expField (referenceRom .binary64).threshold1 - 1 : Nat) : Int) + Fmt.unit .binary64 = -43 := by
      decide +kernel
    rw [hv, hu]
    norm_num [Fmt.bias, zpow_neg]
    constructor <;> linarith

/-- The reference `THRESHOLD_2` is `2^-(p+1)` (R24). -/
theorem valRat_reference_threshold2 (f : Fmt) :
    valRat (referenceRom f).threshold2 = (2 : ℚ) ^ (-((f.p : Int) + 1)) := by
  cases f with
  | binary32 =>
    have hv : valRat (referenceRom .binary32).threshold2 = 1 / 2 ^ 25 := by decide +kernel
    norm_num [hv, Fmt.p, zpow_neg]
  | binary64 =>
    have hv : valRat (referenceRom .binary64).threshold2 = 1 / 2 ^ 54 := by decide +kernel
    norm_num [hv, Fmt.p, zpow_neg]

/-- The reference `THRESHOLD_1` is a positive normal value. -/
theorem reference_threshold1_normal (f : Fmt) :
    finite (referenceRom f).threshold1 = true ∧ sign (referenceRom f).threshold1 = false ∧
      expField (referenceRom f).threshold1 ≠ 0 := by
  cases f <;> decide +kernel

/-- Settles O59: a value above `THRESHOLD_1` is at least one last place above it, which is past `(emax + 1) · ln 2`. -/
theorem referenceThresholds : Obligations.ReferenceThresholds := by
  unfold Obligations.ReferenceThresholds
  intro f
  obtain ⟨hfin, hsign, hexp⟩ := reference_threshold1_normal f
  obtain ⟨hbelow, hnext⟩ := reference_threshold1_bracket f
  refine ⟨valRat_reference_threshold2 f, hfin, hbelow, fun b _ hb => ?_⟩
  refine (val_le_or_next_le b hsign hexp).resolve_right fun h => hb.not_ge (hnext.trans ?_)
  rw [valRat_eq_val b, valRat_eq_val (referenceRom f).threshold1, zpow_add₀ two_ne_zero, zpow_natCast, ← add_mul,
    Rat.cast_le]
  gcongr
  exact_mod_cast h

end Sys2Proof.Machine
end

section
/-! PROOFS. The exponent bound of an admissible image (spec/10_state.md R25 item 5): the checks as propositions, then the lane's
integer `N` is monotone in `x`, primitive by primitive, so the check at `THRESHOLD_1` decides every `x` up to it. -/

namespace Sys2Proof.Machine

variable {f : Fmt}

/-! ### The checks as propositions -/

/-- Finite and positive, said of the exact value. -/
theorem finitePositive_iff {b : Bits f} : finitePositive b = true ↔ finite b = true ∧ 0 < val b := by
  rw [finitePositive, Bool.and_eq_true, decide_eq_true_eq]

/-- The six checks of an image (R25). -/
theorem romAdmissible_iff {rom : Rom f} :
    romAdmissible rom = true ↔ tableAdmissible rom = true ∧ reductionAdmissible rom = true ∧
      thresholdsAdmissible rom = true ∧ exponentAdmissible rom = true ∧ thresholdRangeAdmissible rom = true ∧
      coefficientsAdmissible rom = true := by
  simp only [romAdmissible, Bool.and_eq_true, and_assoc]

/-- The checks of the reduction constants (R25 items 2 and 3). -/
theorem reductionAdmissible_iff {rom : Rom f} :
    reductionAdmissible rom = true ↔ finitePositive rom.invL = true ∧ finitePositive rom.l1 = true ∧
      finitePositive rom.l2 = true ∧ trailingZero rom.l1 = true ∧ near (valRat rom.invL * lnTwo) 32 = true ∧
      near (32 * (valRat rom.l1 + valRat rom.l2)) lnTwo = true := by
  simp only [reductionAdmissible, Bool.and_eq_true, and_assoc]

/-- The checks of the thresholds (R25 item 4). -/
theorem thresholdsAdmissible_iff {rom : Rom f} :
    thresholdsAdmissible rom = true ↔ finite rom.threshold1 = true ∧ finite rom.threshold2 = true ∧
      0 < val rom.threshold2 ∧ val rom.threshold2 < val rom.threshold1 := by
  simp only [thresholdsAdmissible, Bool.and_eq_true, decide_eq_true_eq, and_assoc]

/-! ### The order of patterns -/

/-- When `b` is not below `a`: `a` is `NINF`, or `b` is `PINF`, or both are finite and their values say so (R84). -/
theorem not_flt_iff {a b : Bits f} (ha : fnan a = false) (hb : fnan b = false) :
    flt b a = false ↔ (finf a = true ∧ sign a = true) ∨ (finf b = true ∧ sign b = false) ∨
      (finite a = true ∧ finite b = true ∧ val a ≤ val b) := by
  have hclass : ∀ c : Bits f, fnan c = false → finf c = true ∧ finite c = false ∨ finf c = false ∧ finite c = true :=
    fun c hc => by rcases class_cases c with ⟨h, -⟩ | ⟨-, h⟩ | ⟨-, h⟩ <;> simp_all
  unfold flt ord
  rcases hclass a ha with ⟨hia, hfa⟩ | ⟨hia, hfa⟩ <;> rcases hclass b hb with ⟨hib, hfb⟩ | ⟨hib, hfb⟩ <;>
    cases hsa : sign a <;> cases hsb : sign b <;> simp [ha, hb, hia, hfa, hib, hfb, OrdVal.lt]

/-! ### Rounding is monotone -/

/-- Halfway above the largest finite value, where overflow begins (R74). -/
def overflowBound (f : Fmt) : ℚ := (2 - (2 : ℚ) ^ (-(f.p : Int))) * (2 : ℚ) ^ (f.bias : Int)

/-- The bound is positive. -/
theorem overflowBound_pos (f : Fmt) : 0 < overflowBound f :=
  (zpow_pos two_pos _).trans_le (overflow_bound_mem f).1

/-- What `RN_T` does to a value: never a NaN, infinite from the bound on, nearest where finite. -/
theorem roundNE_spec (f : Fmt) (n t : Int) (zs : Bool) :
    fnan (roundNE f n t zs) = false ∧ sign (roundNE f n t zs) = (if n = 0 then zs else decide (n < 0)) ∧
      (finf (roundNE f n t zs) = true ↔ overflowBound f ≤ |(n : ℚ) * 2 ^ t|) ∧
      (finite (roundNE f n t zs) = true → ∀ b : Bits f, finite b = true →
        |valRat (roundNE f n t zs) - n * 2 ^ t| ≤ |valRat b - n * 2 ^ t|) := by
  obtain ⟨hnan, hsign, hinf, hnear⟩ := roundsToNearestEven f n t zs
  exact ⟨hnan, hsign, hinf, fun hfin b hb => (hnear hfin b hb).1⟩

/-- `RN_T` gives `PINF` exactly from the bound on. -/
theorem roundNE_posInf_iff (f : Fmt) (n t : Int) (zs : Bool) :
    finf (roundNE f n t zs) = true ∧ sign (roundNE f n t zs) = false ↔ overflowBound f ≤ (n : ℚ) * 2 ^ t := by
  obtain ⟨-, hsign, hinf, -⟩ := roundNE_spec f n t zs
  have hpos := overflowBound_pos f
  have ht : (0 : ℚ) < 2 ^ t := zpow_pos two_pos t
  rw [hinf, hsign]
  rcases lt_trichotomy n 0 with hn | rfl | hn
  · have hq : (n : ℚ) * 2 ^ t < 0 := mul_neg_of_neg_of_pos (by exact_mod_cast hn) ht
    simp [hn.ne, hn, (hq.trans hpos).not_ge]
  · simp [hpos.not_ge]
  · have hq : (0 : ℚ) < (n : ℚ) * 2 ^ t := mul_pos (by exact_mod_cast hn) ht
    simp [hn.ne', hn.le, abs_of_pos hq]

/-- `RN_T` gives `NINF` exactly from the negated bound down. -/
theorem roundNE_negInf_iff (f : Fmt) (n t : Int) (zs : Bool) :
    finf (roundNE f n t zs) = true ∧ sign (roundNE f n t zs) = true ↔ (n : ℚ) * 2 ^ t ≤ -overflowBound f := by
  obtain ⟨-, hsign, hinf, -⟩ := roundNE_spec f n t zs
  have hpos := overflowBound_pos f
  have ht : (0 : ℚ) < 2 ^ t := zpow_pos two_pos t
  rw [hinf, hsign]
  rcases lt_trichotomy n 0 with hn | rfl | hn
  · have hq : (n : ℚ) * 2 ^ t < 0 := mul_neg_of_neg_of_pos (by exact_mod_cast hn) ht
    simp [hn.ne, hn, abs_of_neg hq, le_neg]
  · simp [hpos]
  · have hq : (0 : ℚ) < (n : ℚ) * 2 ^ t := mul_pos (by exact_mod_cast hn) ht
    have hno : ¬ (n : ℚ) * 2 ^ t ≤ -overflowBound f := by linarith
    simp [hn.ne', hn.le, hno]

/-- The sign asked for an exact zero does not show in the value. -/
theorem valRat_roundNE_zeroSign (f : Fmt) (n t : Int) (zs zs' : Bool) :
    valRat (roundNE f n t zs) = valRat (roundNE f n t zs') := by
  by_cases hn : n = 0
  · rw [hn, (roundNE_zero_spec f t zs).2.2, (roundNE_zero_spec f t zs').2.2]
  · rw [roundNE_of_ne_zero hn, roundNE_of_ne_zero hn]

/-- The values count the units in order. -/
theorem valRat_le_valRat_iff {a b : Bits f} : valRat a ≤ valRat b ↔ val a ≤ val b := by
  have hu : (0 : ℚ) < 2 ^ f.unit := zpow_pos two_pos _
  rw [valRat_eq_val, valRat_eq_val, mul_le_mul_iff_left₀ hu, Int.cast_le]

/-- Finite roundings keep the order: were they reversed, each would be nearest across the middle between them. -/
theorem val_roundNE_mono {n₁ n₂ : Int} (t : Int) (zs₁ zs₂ : Bool) (h : n₁ ≤ n₂)
    (h₁ : finite (roundNE f n₁ t zs₁) = true) (h₂ : finite (roundNE f n₂ t zs₂) = true) :
    val (roundNE f n₁ t zs₁) ≤ val (roundNE f n₂ t zs₂) := by
  rw [← valRat_le_valRat_iff]
  rcases h.eq_or_lt with rfl | hlt
  · exact (valRat_roundNE_zeroSign f n₁ t zs₁ zs₂).le
  · obtain ⟨-, -, -, hnear₁⟩ := roundNE_spec f n₁ t zs₁
    obtain ⟨-, -, -, hnear₂⟩ := roundNE_spec f n₂ t zs₂
    have hle₁ := hnear₁ h₁ _ h₂
    have hle₂ := hnear₂ h₂ _ h₁
    have hq : (n₁ : ℚ) * 2 ^ t < n₂ * 2 ^ t := mul_lt_mul_of_pos_right (by exact_mod_cast hlt) (zpow_pos two_pos t)
    rw [← sq_le_sq] at hle₁ hle₂
    have hcross : (valRat (roundNE f n₁ t zs₁) - valRat (roundNE f n₂ t zs₂)) * (n₂ * 2 ^ t - n₁ * 2 ^ t) ≤ 0 := by
      linarith
    exact sub_nonpos.mp (nonpos_of_mul_nonpos_left hcross (sub_pos.mpr hq))

/-- Rounding is monotone (R74). -/
theorem not_flt_roundNE {n₁ n₂ : Int} (t : Int) (zs₁ zs₂ : Bool) (h : n₁ ≤ n₂) :
    flt (roundNE f n₂ t zs₂) (roundNE f n₁ t zs₁) = false := by
  have hq : (n₁ : ℚ) * 2 ^ t ≤ n₂ * 2 ^ t := by gcongr
  obtain ⟨hnan₁, -, hinf₁, -⟩ := roundNE_spec f n₁ t zs₁
  obtain ⟨hnan₂, -, hinf₂, -⟩ := roundNE_spec f n₂ t zs₂
  rw [not_flt_iff hnan₁ hnan₂, roundNE_negInf_iff, roundNE_posInf_iff]
  by_cases hneg : (n₁ : ℚ) * 2 ^ t ≤ -overflowBound f
  · exact .inl hneg
  by_cases hpos : overflowBound f ≤ (n₂ : ℚ) * 2 ^ t
  · exact .inr (.inl hpos)
  have hfin : ∀ {n : Int} {zs : Bool}, -overflowBound f < (n : ℚ) * 2 ^ t → (n : ℚ) * 2 ^ t < overflowBound f →
      finite (roundNE f n t zs) = true := fun {n zs} hlo hhi => by
    obtain ⟨hnan, -, hinf, -⟩ := roundNE_spec f n t zs
    rw [← not_iff_not, not_le] at hinf
    rcases class_cases (roundNE f n t zs) with hc | hc | ⟨-, -, hc⟩
    · exact absurd hnan (by simp [hc.1])
    · exact absurd hc.2.1 (hinf.mpr (abs_lt.mpr ⟨hlo, hhi⟩))
    · exact hc
  rw [not_le] at hneg hpos
  have h₁ := hfin (zs := zs₁) hneg (hq.trans_lt hpos)
  have h₂ := hfin (zs := zs₂) (hneg.trans_le hq) hpos
  exact .inr (.inr ⟨h₁, h₂, val_roundNE_mono t zs₁ zs₂ h h₁ h₂⟩)

/-! ### The quotient is monotone -/

/-- A value rounded to an integer, ties to even (R81, R82). -/
def roundedInt (a : Bits f) : Int :=
  if val a < 0 then -(nearestEven (magnitude a) (-f.unit) : Int) else nearestEven (magnitude a) (-f.unit)

/-- The rounded magnitude with the sign bit put back: on a zero of either sign it is 0. -/
theorem signed_nearestEven (a : Bits f) :
    (if sign a then -(nearestEven (magnitude a) (-f.unit) : Int) else (nearestEven (magnitude a) (-f.unit) : Int)) =
      roundedInt a := by
  have hj : ¬ -f.unit ≤ 0 := by have := f.unit_neg; omega
  have hzero : nearestEven 0 (-f.unit) = 0 := by simp [nearestEven, hj]
  have hval := val_eq a
  unfold roundedInt
  rcases Nat.eq_zero_or_pos (magnitude a) with hm | hm
  · simp [hm, hzero]
  · split at hval
    · rw [if_pos ‹_›, if_pos (by omega)]
    · rw [if_neg ‹_›, if_neg (by omega)]

/-- Rounding to an integer is monotone. -/
theorem roundedInt_mono {a b : Bits f} (h : val a ≤ val b) : roundedInt a ≤ roundedInt b := by
  have hmono := fun {x y : Nat} => nearestEven_mono (a := x) (b := y) (-f.unit)
  unfold roundedInt
  rw [← natAbs_val a, ← natAbs_val b]
  split <;> split
  · have hle := hmono (x := (val b).natAbs) (y := (val a).natAbs) (by omega)
    omega
  · omega
  · omega
  · have hle := hmono (x := (val a).natAbs) (y := (val b).natAbs) (by omega)
    omega

/-- `rint` of a finite value rounds it to an integer, which it then writes as a pattern (R81). -/
theorem rint_of_finite {a : Bits f} (h : finite a = true) : rint a = roundNE f (roundedInt a) 0 (sign a) := by
  rw [← signed_nearestEven]
  simp [rint, fnan_of_finite h, finf_of_finite h]

/-- `rint` keeps an infinity (R81). -/
theorem rint_of_finf {a : Bits f} (h : finf a = true) : rint a = a := by
  rcases class_cases a with ⟨-, h', -⟩ | ⟨hnan, -, -⟩ | ⟨-, h', -⟩
  · rw [h] at h'; cases h'
  · simp [rint, hnan, h]
  · rw [h] at h'; cases h'

/-- `rint` makes no NaN. -/
theorem fnan_rint {a : Bits f} (h : fnan a = false) : fnan (rint a) = false := by
  rcases class_cases a with ⟨h', -, -⟩ | ⟨-, hinf, -⟩ | ⟨-, -, hfin⟩
  · rw [h] at h'; cases h'
  · rwa [rint_of_finf hinf]
  · rw [rint_of_finite hfin]
    exact (roundNE_spec f _ 0 _).1

/-- `rint` is monotone (R81). -/
theorem not_flt_rint {a b : Bits f} (ha : fnan a = false) (hb : fnan b = false) (h : flt b a = false) :
    flt (rint b) (rint a) = false := by
  rcases (not_flt_iff ha hb).mp h with ⟨hinf, hs⟩ | ⟨hinf, hs⟩ | ⟨hfa, hfb, hle⟩
  · rw [not_flt_iff (fnan_rint ha) (fnan_rint hb), rint_of_finf hinf]
    exact .inl ⟨hinf, hs⟩
  · rw [not_flt_iff (fnan_rint ha) (fnan_rint hb), rint_of_finf hinf]
    exact .inr (.inl ⟨hinf, hs⟩)
  · rw [rint_of_finite hfa, rint_of_finite hfb]
    exact not_flt_roundNE 0 _ _ (roundedInt_mono hle)

/-- The integers of the format reach from `INT_MIN` to `INT_MAX` (R86). -/
theorem toInt_mem (n : IntT f) : intMin f ≤ n.toInt ∧ n.toInt ≤ intMax f := by
  have hlo := BitVec.le_toInt n
  have hhi := BitVec.toInt_lt (x := n)
  unfold intMin intMax
  push_cast
  exact ⟨hlo, by omega⟩

/-- An integer within the format is held as it is (R86). -/
theorem toInt_ofInt_of_mem {k : Int} (hlo : intMin f ≤ k) (hhi : k ≤ intMax f) : (BitVec.ofInt f.w k).toInt = k := by
  have hw : 0 < f.w := by cases f <;> decide
  unfold intMin at hlo
  unfold intMax at hhi
  push_cast at hlo hhi
  exact BitVec.toInt_ofInt_eq_self hw hlo (by omega)

/-- `f2i` of a finite value is its rounding to an integer, saturated (R82). -/
theorem toInt_f2i_of_finite {a : Bits f} (h : finite a = true) :
    (f2i a).toInt = min (intMax f) (max (intMin f) (roundedInt a)) := by
  have hle : intMin f ≤ intMax f := by cases f <;> decide
  rw [← signed_nearestEven]
  simp only [f2i, fnan_of_finite h, finf_of_finite h, Bool.false_eq_true, if_false]
  exact toInt_ofInt_of_mem (le_min hle (le_max_left ..)) (min_le_left ..)

/-- `f2i` saturates an infinity (R82). -/
theorem toInt_f2i_of_finf {a : Bits f} (hnan : fnan a = false) (h : finf a = true) :
    (f2i a).toInt = if sign a then intMin f else intMax f := by
  have hle : intMin f ≤ intMax f := by cases f <;> decide
  simp only [f2i, hnan, h, Bool.false_eq_true, if_false, if_true]
  split
  · exact toInt_ofInt_of_mem le_rfl hle
  · exact toInt_ofInt_of_mem hle le_rfl

/-- `f2i` is monotone (R82). -/
theorem toInt_f2i_mono {a b : Bits f} (ha : fnan a = false) (hb : fnan b = false) (h : flt b a = false) :
    (f2i a).toInt ≤ (f2i b).toInt := by
  rcases (not_flt_iff ha hb).mp h with ⟨hinf, hs⟩ | ⟨hinf, hs⟩ | ⟨hfa, hfb, hle⟩
  · rw [toInt_f2i_of_finf ha hinf, if_pos hs]
    exact (toInt_mem _).1
  · rw [toInt_f2i_of_finf hb hinf, if_neg (by simp [hs])]
    exact (toInt_mem _).2
  · rw [toInt_f2i_of_finite hfa, toInt_f2i_of_finite hfb]
    exact min_le_min_left _ (max_le_max_left _ (roundedInt_mono hle))

/-- The product of finite values is one rounding (R77). -/
theorem fmul_of_finite {a b : Bits f} (ha : finite a = true) (hb : finite b = true) :
    fmul a b = roundNE f (val a * val b) (2 * f.unit) (sign a ^^ sign b) := by
  simp [fmul, fnan_of_finite ha, fnan_of_finite hb, finf_of_finite ha, finf_of_finite hb]

/-- `N` is monotone in `x` for a finite `INV_L` that is not negative (R101 to R103). -/
theorem quotient_mono {rom : Rom f} (hfin : finite rom.invL = true) (hpos : 0 ≤ val rom.invL) {x y : Bits f}
    (hx : finite x = true) (hy : finite y = true) (h : val x ≤ val y) :
    (rangeReducer rom x).n.toInt ≤ (rangeReducer rom y).n.toInt := by
  have hmul : flt (fmul y rom.invL) (fmul x rom.invL) = false := by
    rw [fmul_of_finite hx hfin, fmul_of_finite hy hfin]
    exact not_flt_roundNE _ _ _ (mul_le_mul_of_nonneg_right h hpos)
  have hnan : ∀ z : Bits f, finite z = true → fnan (fmul z rom.invL) = false := fun z hz => by
    rw [fmul_of_finite hz hfin]
    exact (roundNE_spec f _ _ _).1
  exact toInt_f2i_mono (fnan_rint (hnan x hx)) (fnan_rint (hnan y hy)) (not_flt_rint (hnan x hx) (hnan y hy) hmul)

/-- `M` is the floor of `N / 32` (R104, R105). -/
theorem toInt_exponentQuotient (n : IntT f) : (exponentQuotient n).toInt = n.toInt / 32 := by
  have hmod : (tableIndex n).toNat = n.toNat % 32 := by
    rw [tableIndex, BitVec.toNat_and]
    have h31 : (31 : IntT f).toNat = 2 ^ 5 - 1 := by cases f <;> rfl
    rw [h31, Nat.and_two_pow_sub_one_eq_mod]
  have hmul : (multipleOf32 n).toInt = n.toInt - (n.toNat % 32 : Nat) := by
    have hlt := n.isLt
    rw [multipleOf32, BitVec.toInt_eq_toNat_cond, BitVec.toInt_eq_toNat_cond, BitVec.toNat_sub, hmod]
    cases f <;> simp only [Fmt.w] at * <;> split <;> split <;> omega
  have hrem : ((n.toNat % 32 : Nat) : Int) = n.toInt % 32 := by
    have hlt := n.isLt
    rw [BitVec.toInt_eq_toNat_cond]
    cases f <;> simp only [Fmt.w] at * <;> split <;> omega
  rw [exponentQuotient, shiftRightArith, BitVec.toInt_sshiftRight, Int.shiftRight_eq_div_pow, hmul, hrem]
  omega

/-- Settles O43: `x` up to `THRESHOLD_1` has an `N` up to that of `THRESHOLD_1`, whose `M` the image check bounds. -/
theorem admissibleRomBoundsExponent : Obligations.AdmissibleRomBoundsExponent := by
  unfold Obligations.AdmissibleRomBoundsExponent
  intro f rom hrom x hx hle
  obtain ⟨-, hred, hthr, hexp, -, -⟩ := romAdmissible_iff.mp hrom
  obtain ⟨hinvL, -⟩ := reductionAdmissible_iff.mp hred
  obtain ⟨hfin, hpos⟩ := finitePositive_iff.mp hinvL
  obtain ⟨hT, -⟩ := thresholdsAdmissible_iff.mp hthr
  have hn := quotient_mono hfin hpos.le hx hT ((le_abs_self _).trans hle)
  have hm : ∀ y : Bits f, (rangeReducer rom y).m.toInt = (rangeReducer rom y).n.toInt / 32 := fun y =>
    toInt_exponentQuotient (rangeReducer rom y).n
  rw [exponentAdmissible, decide_eq_true_eq, hm] at hexp
  rw [hm]
  omega

end Sys2Proof.Machine
end

section
/-! PROOFS. What an admissible image is in real numbers (spec/10_state.md R25 items 1 to 4, 6 and 7; log 6): each check with its
rational tolerance of one part in 1024 gives a real bound of one part in 1000. -/

namespace Sys2Proof.Machine

variable {f : Fmt}

/-! ### Closeness -/

/-- `near` as a bound on the error, in real numbers. -/
theorem abs_sub_le_of_near {a b : ℚ} (h : near a b = true) : |(a : ℝ) - b| ≤ (b : ℝ) / 1024 := by
  rw [near, Bool.and_eq_true, decide_eq_true_eq, decide_eq_true_eq] at h
  obtain ⟨hlo, hhi⟩ := h
  have hlo' : (b : ℝ) - b / 1024 ≤ a := by exact_mod_cast hlo
  have hhi' : (a : ℝ) ≤ b + b / 1024 := by exact_mod_cast hhi
  exact abs_sub_le_iff.mpr ⟨by linarith, by linarith⟩

/-- A number is relatively as close to another as their powers are. -/
theorem abs_sub_le_of_pow {s c ε : ℝ} {n : Nat} (hn : n ≠ 0) (hs : 0 < s) (hc : 0 < c)
    (h : |s ^ n - c ^ n| ≤ c ^ n * ε) : |s - c| ≤ c * ε := by
  obtain ⟨r, rfl⟩ : ∃ r, s = c * r := ⟨s / c, (mul_div_cancel₀ s hc.ne').symm⟩
  have hr : 0 < r := pos_of_mul_pos_right hs hc.le
  have hpow : |r ^ n - 1| ≤ ε := by
    rw [mul_pow, ← mul_sub_one, abs_mul, abs_of_pos (pow_pos hc n)] at h
    exact le_of_mul_le_mul_left h (pow_pos hc n)
  have hbase : |r - 1| ≤ |r ^ n - 1| := by
    rcases le_total 1 r with h1 | h1
    · have hle := le_self_pow₀ h1 hn
      rw [abs_of_nonneg (by linarith), abs_of_nonneg (by linarith)]
      linarith
    · have hle := pow_le_of_le_one hr.le h1 hn
      rw [abs_of_nonpos (by linarith), abs_of_nonpos (by linarith)]
      linarith
  rw [← mul_sub_one, abs_mul, abs_of_pos hc]
  exact mul_le_mul_of_nonneg_left (hbase.trans hpow) hc.le

/-- A factor is relatively as close to a quotient as the product is to the dividend. -/
theorem abs_sub_div_le {v c b : ℝ} (hc : 0 < c) (h : |v * c - b| ≤ b / 1000) : |v - b / c| ≤ b / c / 1000 := by
  rw [show v - b / c = (v * c - b) / c by field_simp, abs_div, abs_of_pos hc, div_right_comm]
  gcongr

/-- `ln 2` lies below the nine places of the checks, by less than one part in 10^9. -/
theorem log_two_near_lnTwo : (lnTwo : ℝ) - 1 / 10 ^ 9 < Real.log 2 ∧ Real.log 2 < lnTwo := by
  obtain ⟨hlo, hhi⟩ := log_two_bounds
  have h : (lnTwo : ℝ) = 693147181 / 1000000000 := by norm_num [lnTwo, Rat.mkRat_eq_div]
  rw [h]
  constructor <;> linarith

/-- A positive value counts a positive number of units. -/
theorem valRat_pos_iff {b : Bits f} : 0 < valRat b ↔ 0 < val b := by
  rw [valRat_eq_val, mul_pos_iff_of_pos_right (zpow_pos two_pos _), Int.cast_pos]

/-- A last bit that is zero. -/
theorem trailingZero_iff {b : Bits f} : trailingZero b = true ↔ b.getLsbD 0 = false := by
  rw [trailingZero, Bool.not_eq_true']

/-! ### The checks, one by one -/

/-- An admissible table entry (R25 items 1 and 2). -/
theorem entry_close {k : Nat} {lead trail : Bits f} (h : entryAdmissible k lead trail = true) :
    finite lead = true ∧ finite trail = true ∧ 1 ≤ ((valRat lead : ℚ) : ℝ) ∧ ((valRat lead : ℚ) : ℝ) < 2 ∧
      lead.getLsbD 0 = false ∧
      |((valRat lead : ℚ) : ℝ) + ((valRat trail : ℚ) : ℝ) - (2 : ℝ) ^ ((k : ℝ) / 32)| ≤ (2 : ℝ) ^ ((k : ℝ) / 32) / 1000 := by
  simp only [entryAdmissible, Bool.and_eq_true, decide_eq_true_eq, trailingZero_iff] at h
  obtain ⟨⟨⟨⟨⟨⟨hfl, hft⟩, hge⟩, hlt⟩, hbit⟩, hsum⟩, hnear⟩ := h
  refine ⟨hfl, hft, by exact_mod_cast hge, by exact_mod_cast hlt, hbit, ?_⟩
  have hroot : ((2 : ℝ) ^ ((k : ℝ) / 32)) ^ 32 = 2 ^ k := by
    rw [← Real.rpow_natCast, ← Real.rpow_mul two_pos.le, ← Real.rpow_natCast]
    congr 1
    push_cast
    ring
  have hpow := abs_sub_le_of_near hnear
  have hpos : (0 : ℝ) < (2 : ℝ) ^ ((k : ℝ) / 32) := Real.rpow_pos_of_pos two_pos _
  have hsum' : (0 : ℝ) < ((valRat lead : ℚ) : ℝ) + ((valRat trail : ℚ) : ℝ) := by exact_mod_cast hsum
  have hrat : ((mkRat (2 ^ k) 1 : ℚ) : ℝ) = 2 ^ k := by simp [Rat.mkRat_eq_div]
  rw [hrat, Rat.cast_pow, Rat.cast_add, ← hroot] at hpow
  have hclose := abs_sub_le_of_pow (ε := 1 / 1024) (n := 32) (by norm_num) hsum' hpos (by linarith)
  linarith

/-- The admissible reduction constants (R25 items 2 and 3). -/
theorem reduction_close {rom : Rom f} (h : reductionAdmissible rom = true) :
    |((valRat rom.invL : ℚ) : ℝ) - 32 / Real.log 2| ≤ 32 / Real.log 2 / 1000 ∧
      |((valRat rom.l1 : ℚ) : ℝ) + ((valRat rom.l2 : ℚ) : ℝ) - Real.log 2 / 32| ≤ Real.log 2 / 32 / 1000 := by
  obtain ⟨hinvL, -, -, -, hnearInv, hnearL⟩ := reductionAdmissible_iff.mp h
  obtain ⟨hlo, hhi⟩ := log_two_near_lnTwo
  have hpos : (0 : ℝ) < ((valRat rom.invL : ℚ) : ℝ) := by
    exact_mod_cast valRat_pos_iff.mpr (finitePositive_iff.mp hinvL).2
  have hinv := abs_sub_le_of_near hnearInv
  have hl := abs_sub_le_of_near hnearL
  push_cast at hinv hl
  rw [abs_sub_le_iff] at hinv hl
  have hcoarse : (2 / 3 : ℝ) < Real.log 2 := lt_trans (by norm_num) log_two_bounds.1
  have hbelow := mul_lt_mul_of_pos_left hhi hpos
  have hsmall := mul_lt_mul_of_pos_left hcoarse hpos
  have habove := mul_lt_mul_of_pos_left hlo hpos
  exact ⟨abs_sub_div_le (by linarith) (abs_sub_le_iff.mpr ⟨by linarith, by linarith⟩),
    abs_sub_le_iff.mpr ⟨by linarith, by linarith⟩⟩

/-- The admissible coefficients (R25 item 7). -/
theorem coefficient_close {rom : Rom f} (h : coefficientsAdmissible rom = true) (i : Fin f.na) :
    finite rom.a[i] = true ∧ 0 < ((valRat rom.a[i] : ℚ) : ℝ) ∧
      |((valRat rom.a[i] : ℚ) : ℝ) - 1 / ((i.val + 2).factorial : ℝ)| ≤ 1 / ((i.val + 2).factorial : ℝ) / 1000 := by
  rw [coefficientsAdmissible, List.all_eq_true] at h
  have hmem : (rom.a[i], i.val) ∈ rom.a.toList.zipIdx := by
    rw [List.mem_zipIdx_iff_getElem?]
    simp
  have hc := h _ hmem
  rw [Bool.and_eq_true, finitePositive_iff] at hc
  obtain ⟨⟨hfin, hpos⟩, hnear⟩ := hc
  refine ⟨hfin, by exact_mod_cast valRat_pos_iff.mpr hpos, abs_sub_div_le (by positivity) ?_⟩
  have hle := abs_sub_le_of_near hnear
  have hrat : ((mkRat (i.val + 2).factorial 1 : ℚ) : ℝ) = (i.val + 2).factorial := by simp [Rat.mkRat_eq_div]
  rw [Rat.cast_mul, hrat, Rat.cast_one] at hle
  linarith

/-- The admissible binary32 `THRESHOLD_1` (R25 item 6). -/
theorem threshold1_range {rom : Rom .binary32} (h : thresholdRangeAdmissible rom = true) :
    88.7 ≤ ((valRat rom.threshold1 : ℚ) : ℝ) ∧ ((valRat rom.threshold1 : ℚ) : ℝ) < 103 := by
  rw [thresholdRangeAdmissible, Bool.and_eq_true, decide_eq_true_eq, decide_eq_true_eq] at h
  obtain ⟨hlo, hhi⟩ := h
  have hrat : ((mkRat 887 10 : ℚ) : ℝ) = 88.7 := by norm_num [Rat.mkRat_eq_div]
  exact ⟨by rw [← hrat]; exact_mod_cast hlo, by exact_mod_cast hhi⟩

/-- Settles O44: check by check. -/
theorem admissibleRomIsClose : Obligations.AdmissibleRomIsClose := by
  unfold Obligations.AdmissibleRomIsClose
  intro f rom hrom
  dsimp only
  obtain ⟨htab, hred, hthr, -, hrange, hcoef⟩ := romAdmissible_iff.mp hrom
  obtain ⟨hinvL, hl1, hl2, hbit, -, -⟩ := reductionAdmissible_iff.mp hred
  obtain ⟨hcloseInv, hcloseL⟩ := reduction_close hred
  obtain ⟨hT1, hT2, hpos, hlt⟩ := thresholdsAdmissible_iff.mp hthr
  rw [finitePositive_iff, ← valRat_pos_iff] at hinvL hl1 hl2
  rw [← valRat_pos_iff] at hpos
  rw [← not_le, ← valRat_le_valRat_iff, not_le] at hlt
  rw [trailingZero_iff] at hbit
  rw [tableAdmissible, List.all_eq_true] at htab
  refine ⟨fun k => entry_close (htab k (List.mem_finRange k)),
    ⟨hinvL.1, Rat.cast_pos.mpr hinvL.2, hcloseInv⟩,
    ⟨hl1.1, Rat.cast_pos.mpr hl1.2, hl2.1, Rat.cast_pos.mpr hl2.2, hbit, hcloseL⟩,
    ⟨hT1, hT2, Rat.cast_pos.mpr hpos, Rat.cast_lt.mpr hlt⟩, ?_, coefficient_close hcoef⟩
  rintro rfl
  exact threshold1_range hrange

end Sys2Proof.Machine
end

section
/-! PROOFS. The ROM address spaces (spec/20_memory.md R40 to R48): no step writes them, and the gather's index and effective
addresses lie in the entry map. -/

namespace Sys2Proof.Machine

variable {f : Fmt}

/-- Settles O24: a step keeps the configuration, and the entry map is a function of it. -/
theorem romNeverWritten : Obligations.RomNeverWritten := by
  unfold Obligations.RomNeverWritten
  intro s t h
  have hcfg := cfg_of_step h
  exact ⟨hcfg, fun f idx => by rw [hcfg]⟩

/-! ### The gather -/

/-- `N2` is `N` modulo 32 whatever the sign of `N` (R104). -/
theorem toNat_tableIndex (n : IntT f) : (tableIndex n).toNat = n.toNat % 32 := by
  have hmask : (31 : IntT f).toNat = 2 ^ 5 - 1 := by cases f <;> rfl
  rw [tableIndex, BitVec.toNat_and, hmask, Nat.and_two_pow_sub_one_eq_mod]

/-- `MemRead(S_lead_T, idx)` reads the entry named by the low five bits of the index (R41, R43). -/
theorem romEntry_lead (rom : Rom f) (idx : IntT f) : romEntry rom (idx.toNat % 32) = some (memReadLead rom idx) := by
  have hlt : idx.toNat % 32 < 32 := Nat.mod_lt _ (by decide)
  rw [romEntry, dif_pos hlt, memReadLead]

/-- `MemRead(S_trail_T, idx)` reads 32 entries further on (R41, R43). -/
theorem romEntry_trail (rom : Rom f) (idx : IntT f) :
    romEntry rom (32 + idx.toNat % 32) = some (memReadTrail rom idx) := by
  have hge : ¬ 32 + idx.toNat % 32 < 32 := by omega
  have hlt : 32 + idx.toNat % 32 - 32 < 32 := by omega
  rw [romEntry, dif_neg hge, dif_pos hlt]
  simp only [memReadTrail, Nat.add_sub_cancel_left]

/-- Settles O38: the mask of R104 bounds `N2` for every `N`, so its low five bits are all of it. -/
theorem gatherReadsTheEntryMap : Obligations.GatherReadsTheEntryMap := by
  unfold Obligations.GatherReadsTheEntryMap
  intro f rom x n2
  have hn2 : n2 = tableIndex (rangeReducer rom x).n := rfl
  have hlt : n2.toNat < 32 := by
    rw [hn2, toNat_tableIndex]
    exact Nat.mod_lt _ (by decide)
  have hlead := romEntry_lead rom n2
  have htrail := romEntry_trail rom n2
  rw [Nat.mod_eq_of_lt hlt] at hlead htrail
  exact ⟨hlt, hlead, htrail⟩

end Sys2Proof.Machine
end

section
/-! PROOFS. The command encoding (spec/30_encoding.md R55 to R61): encode and decode undo one another, and what holds
of a command's word is then read off the instruction, constructor by constructor. -/

namespace Sys2Proof.Machine

/-! ### Encode and decode undo one another -/

/-- Settles O4: every constructor but `illegalAlg1` fixes its word; that one's word is well-formed when its `alg` bit is
set, which is the decoder's first test. -/
theorem decodeOfEncodeIsIdentity : Obligations.DecodeOfEncodeIsIdentity := by
  unfold Obligations.DecodeOfEncodeIsIdentity
  exact fun i => decode_encode

/-- The decoder's first test is the check of `Instr.wf` (R56). -/
theorem algField_eq_one_iff (op : CmdWord) : algField op = 1 ↔ op.getLsbD 3 = true := by
  revert op
  decide

/-- The decoder answers well-formed instructions only. -/
theorem wf_decode (c : Command) : (decode c).wf = true := by
  by_cases halg : algField c.op = 1
  · rw [decode, if_pos halg]
    exact (algField_eq_one_iff c.op).mp halg
  · rw [decode, if_neg halg]
    split_ifs <;> rfl

/-- Encoding undoes decoding: no bit of a command is lost (R61). -/
theorem encode_decode (c : Command) : encode (decode c) = c := by
  obtain ⟨op, vs⟩ := c
  induction op using cmdWord_cases with
  | h n => fin_cases n <;> simp [encode, decode, algField, fmtField, vlField]

/-- The decoder chooses the row by the word alone (R61). -/
theorem mnemonic_decode_operand (op : CmdWord) (vs vs' : Vec) :
    (decode ⟨op, vs'⟩).mnemonic = (decode ⟨op, vs⟩).mnemonic := by
  unfold decode
  split_ifs <;> rfl

/-! ### The word of an instruction -/

/-- The words of the row `ILLEGAL.alg1` are illegal (R59). -/
theorem legal_of_alg {op : CmdWord} (h : op.getLsbD 3 = true) : legal op = false := by
  revert op
  decide

/-- A legal word is the word of one of the five operations (R58). -/
theorem operation_of_legal {i : Instr} (hwf : i.wf = true) (h : legal (encode i).op = true) :
    i ∈ [.vexpS4 (encode i).vs, .vexpS8 (encode i).vs, .vexpS16 (encode i).vs, .vexpD4 (encode i).vs,
      .vexpD8 (encode i).vs] := by
  cases i with
  | illegalAlg1 op vs => exact absurd h (by simp [encode, legal_of_alg hwf])
  | illegalVl3S vs | illegalD16 vs | illegalVl3D vs => simp [encode, legal, algField, fmtField, vlField] at h
  | vexpS4 vs | vexpS8 vs | vexpS16 vs | vexpD4 vs | vexpD8 vs => simp [encode]

/-- An illegal word is the word of one of the four illegal rows (R59). -/
theorem illegal_row_of_not_legal {i : Instr} (h : legal (encode i).op = false) :
    i ∈ [.illegalVl3S (encode i).vs, .illegalD16 (encode i).vs, .illegalVl3D (encode i).vs,
      .illegalAlg1 (encode i).op (encode i).vs] := by
  cases i with
  | vexpS4 vs | vexpS8 vs | vexpS16 vs | vexpD4 vs | vexpD8 vs => simp [encode, legal, algField, fmtField, vlField] at h
  | illegalVl3S vs | illegalD16 vs | illegalVl3D vs | illegalAlg1 op vs => simp [encode]

/-- A word with the `alg` bit set lies in the row `ILLEGAL.alg1` and in no other. -/
theorem rows_of_alg {op : CmdWord} (h : op.getLsbD 3 = true) :
    (opcodeTable.filter fun r => r.holds op).map (fun r => r.mnemonic) = ["ILLEGAL.alg1"] := by
  revert op
  decide

/-- The word of an instruction lies in that instruction's row of the opcode table and in no other (R58, R59). -/
theorem rows_encode {i : Instr} (hwf : i.wf = true) :
    (opcodeTable.filter fun r => r.holds (encode i).op).map (fun r => r.mnemonic) = [i.mnemonic] := by
  cases i with
  | illegalAlg1 op vs => exact rows_of_alg hwf
  | _ => simp [opcodeTable, OpcodeRow.holds, encode, Instr.mnemonic]

/-! ### The statements on commands -/

/-- Settles O3: a command is the encoding of the instruction it decodes to, so its word is that instruction's. -/
theorem everyCommandIsOneInstruction : Obligations.EveryCommandIsOneInstruction := by
  unfold Obligations.EveryCommandIsOneInstruction
  intro c
  have hop := operation_of_legal (wf_decode c)
  have hill := illegal_row_of_not_legal (i := decode c)
  rw [encode_decode] at hop hill
  exact ⟨wf_decode c, encode_decode c, hop, hill, mnemonic_decode_operand c.op c.vs⟩

/-- Settles O5: the command's word is the word of the instruction it decodes to. -/
theorem opcodeTableUnambiguous : Obligations.OpcodeTableUnambiguous := by
  unfold Obligations.OpcodeTableUnambiguous
  intro c
  have hrows := rows_encode (wf_decode c)
  rwa [encode_decode] at hrows

/-- Settles O1: each word of the map is the encoding of its operation; the rest of a row is evaluated. -/
theorem operationWordsDecode : Obligations.OperationWordsDecode := by
  unfold Obligations.OperationWordsDecode
  intro vs
  exact ⟨⟨decode_encode (i := .vexpS4 vs) rfl, rfl, rfl, rfl, rfl⟩,
    ⟨decode_encode (i := .vexpS8 vs) rfl, rfl, rfl, rfl, rfl⟩,
    ⟨decode_encode (i := .vexpS16 vs) rfl, rfl, rfl, rfl, rfl⟩,
    ⟨decode_encode (i := .vexpD4 vs) rfl, rfl, rfl, rfl, rfl⟩,
    ⟨decode_encode (i := .vexpD8 vs) rfl, rfl, rfl, rfl, rfl⟩⟩

end Sys2Proof.Machine
end

section
/-! PROOFS. Commands served (spec/30_encoding.md R59, R66; spec/60_exceptions.md R212): an illegal command is accepted
and answered like any other, and a run without reset delivers its answers in order. -/

namespace Sys2Proof.Machine

open Sys2Proof.Safety

/-! ### Illegal commands -/

/-- A step on which the host's command joins the queue (R35). -/
theorem step_of_accept {s : State} (hr : s.portIn.rstN = true) (hv : s.portIn.cmdValid = true)
    (hroom : s.q.length < s.cfg.qdepth) : step s = .next (acceptStep ⟨s.portIn.cmdOp, s.portIn.cmdVs⟩ s) := by
  rw [step, nextMove_accept_iff.mpr ⟨hr, hv, hroom, rfl⟩]

/-- The response owed to an illegal word is the `IllegalCommand` response (R212). -/
theorem answer_of_illegal (cfg : Config) {c : Command} (h : legal c.op = false) : answer cfg c = ⟨0, true⟩ := by
  simp [answer, h]

/-- Settles O2: the words are checked one by one; acceptance does not read the word, and the answer to an illegal one is
`answer_of_illegal`. -/
theorem illegalWordsAcceptedAndAnswered : Obligations.IllegalWordsAcceptedAndAnswered := by
  unfold Obligations.IllegalWordsAcceptedAndAnswered
  refine ⟨by decide, by decide, ?_, ?_⟩
  · intro s hr hv hroom
    exact ⟨_, step_of_accept hr hv hroom, rfl⟩
  · intro s c hm hill
    have hstep := step_of_respond hm
    rw [answer_of_illegal s.cfg hill] at hstep
    exact ⟨_, hstep, rfl, rfl, rfl⟩

/-- Settles O11: each of the four arms is `raiseIllegalCommand`, which emits the one response
(`raiseIllegalCommand_eq_emit`). -/
theorem illegalRowsComplete : Obligations.IllegalRowsComplete := by
  unfold Obligations.IllegalRowsComplete
  exact fun op vs s => ⟨rfl, rfl, rfl, rfl⟩

/-! ### Responses in order -/

/-- A reset-free run does not change what the host will have been given (R66, R235, R236). -/
theorem owed_of_run (n : Nat) {s t : State} (hreset : noReset s.host = true) (h : Host.Core.run core n s = .next t) :
    owed t = owed s := by
  induction n generalizing s with
  | zero =>
    cases h
    rfl
  | succ n ih =>
    obtain ⟨u, hstep⟩ := step_total s
    rw [run_succ_of_step core hstep] at h
    exact (ih (noReset_of_step hreset hstep) h).trans (owed_of_step (rstN_of_noReset hreset) hstep)

/-- With nothing queued and nothing to be presented, what is owed is what was delivered. -/
theorem owed_of_drained {s : State} (h : drained s) : owed s = s.out := by
  obtain ⟨hq, hp⟩ := h
  rw [owed, hq, hp, List.nil_append, List.map_nil, List.append_nil]

/-- Settles O25: `owed_of_step` for the step and `owed_of_run` for the run, read at a drained end. -/
theorem responsesInOrderForEverySchedule : Obligations.ResponsesInOrderForEverySchedule := by
  unfold Obligations.ResponsesInOrderForEverySchedule
  refine ⟨fun s t hr h => owed_of_step hr h, fun n s t hreset h => ?_⟩
  have howed := owed_of_run n hreset h
  exact ⟨howed, fun hd => (owed_of_drained hd).symm.trans howed⟩

end Sys2Proof.Machine
end

section
/-! PROOFS. The exact values behind the rounded primitives (spec/40_primitives.md R71 to R74): the fields and the value of a
pattern determine one another, `RN_T` depends on the value only and gives back every value of the format. -/

namespace Sys2Proof.Machine

variable {f : Fmt}

/-! ### Class and value of a pattern -/

/-- The infinity of a sign is the only one (R26, R71). -/
theorem eq_infinity_of_finf {b : Bits f} (h : finf b = true) : b = if sign b then f.ninf else f.pinf := by
  have hinf : ∀ s : Bool, sign (if s then f.ninf else f.pinf) = s ∧
      expField (if s then f.ninf else f.pinf) = f.expAllOnes ∧ fracField (if s then f.ninf else f.pinf) = 0 := by
    cases f <;> decide
  obtain ⟨hs, he, hf⟩ := hinf (sign b)
  simp only [finf, Bool.and_eq_true, beq_iff_eq] at h
  exact bits_ext hs.symm (h.1.trans he.symm) (h.2.trans hf.symm)

/-- An infinity is not a NaN. -/
theorem fnan_of_finf {b : Bits f} (h : finf b = true) : fnan b = false := by
  rcases class_cases b with ⟨-, h', -⟩ | ⟨h', -, -⟩ | ⟨h', -, -⟩
  · rw [h] at h'; cases h'
  · exact h'
  · exact h'

/-- The zero of a sign is the only one (R26, R71). -/
theorem eq_zero_pattern {b : Bits f} (he : expField b = 0) (hf : fracField b = 0) :
    b = if sign b then f.signBit else f.pzero := by
  have hzero : ∀ s : Bool, sign (if s then f.signBit else f.pzero) = s ∧
      expField (if s then f.signBit else f.pzero) = 0 ∧ fracField (if s then f.signBit else f.pzero) = 0 := by
    cases f <;> decide
  obtain ⟨hs', he', hf'⟩ := hzero (sign b)
  exact bits_ext hs'.symm (he.trans he'.symm) (hf.trans hf'.symm)

/-- A pattern is finite below the exponent field of all ones (R71). -/
theorem finite_iff_expField_lt {b : Bits f} : finite b = true ↔ expField b < f.expAllOnes := by
  have hlt := expField_lt b
  have hones := f.expAllOnes_eq
  rw [finite, bne_iff_ne]
  omega

/-- The quiet bit is the upper half of the fraction's range (R71). -/
theorem quietNan_iff {b : Bits f} (h : fnan b = true) : quietNan b = true ↔ 2 ^ (f.shift - 1) ≤ fracField b := by
  have hmsb : (b.extractLsb' 0 f.shift).msb = b.getLsbD (f.shift - 1) := by
    have := f.shift_pos
    simp [BitVec.msb_eq_getLsbD_last, this]
  rw [quietNan, h, Bool.true_and, ← hmsb, BitVec.msb_eq_decide, decide_eq_true_eq, fracField]

/-- The value of a normal pattern as a whole number of its last places (R71). -/
theorem magnitude_of_normal {b : Bits f} (h : 1 ≤ expField b) :
    magnitude b = (2 ^ f.shift + fracField b) * 2 ^ (expField b - 1) := if_neg (by omega)

/-- The value of a normal pattern (R71). -/
theorem valRat_of_normal {b : Bits f} (h : 1 ≤ expField b) :
    valRat b = (if sign b then -1 else 1) * (1 + (fracField b : ℚ) / 2 ^ f.shift) *
      (2 : ℚ) ^ ((expField b : Int) - (f.bias : Int)) := by
  have hscale : (2 : ℚ) ^ ((expField b : Int) - (f.bias : Int)) =
      2 ^ f.shift * (2 ^ (expField b - 1) * 2 ^ f.unit) := by
    rw [← zpow_natCast, ← zpow_natCast, ← zpow_add₀ two_ne_zero, ← zpow_add₀ two_ne_zero]
    congr 1
    unfold Fmt.unit Fmt.emin
    push_cast [h]
    ring
  rw [valRat_eq, magnitude_of_normal h, hscale]
  push_cast
  field_simp

/-- The value of a subnormal pattern or a zero (R71). -/
theorem valRat_of_expField_zero {b : Bits f} (h : expField b = 0) :
    valRat b = (if sign b then -1 else 1) * ((fracField b : ℚ) / 2 ^ f.shift) * (2 : ℚ) ^ f.emin := by
  have hmag : magnitude b = fracField b := if_pos h
  rw [valRat_eq, hmag, Fmt.unit, zpow_sub₀ two_ne_zero, zpow_natCast]
  ring

/-- Settles O45: the classes are the fields' definition, and the values the magnitude's two cases. -/
theorem patternClassAndValue : Obligations.PatternClassAndValue := by
  unfold Obligations.PatternClassAndValue
  intro f b
  refine ⟨by simp [fnan], quietNan_iff, by simp [finf], eq_infinity_of_finf, finite_iff_expField_lt,
    fun h _ => valRat_of_normal h, fun h _ => valRat_of_expField_zero h, fun he hf => ⟨?_, eq_zero_pattern he hf⟩⟩
  rw [valRat_of_expField_zero he, hf]
  simp

/-! ### The value and the sign determine the pattern -/

/-- The magnitude lies below the end of its binade. -/
theorem magnitude_lt (b : Bits f) : magnitude b < 2 ^ (f.shift + expField b) := by
  have hF := fracField_lt b
  unfold magnitude
  split
  next h => rwa [h, Nat.add_zero]
  next h =>
    calc (2 ^ f.shift + fracField b) * 2 ^ (expField b - 1)
        < 2 ^ (f.shift + 1) * 2 ^ (expField b - 1) := by gcongr; rw [pow_succ]; omega
      _ = 2 ^ (f.shift + expField b) := by rw [← pow_add]; congr 1; omega

/-- The magnitudes of patterns keep the order of their exponent fields. -/
theorem magnitude_lt_of_expField_lt {a b : Bits f} (h : expField a < expField b) : magnitude a < magnitude b := by
  calc magnitude a < 2 ^ (f.shift + expField a) := magnitude_lt a
    _ ≤ 2 ^ (f.shift + (expField b - 1)) := Nat.pow_le_pow_right two_pos (by omega)
    _ ≤ magnitude b := by
      rw [magnitude_of_normal (by omega), pow_add]
      exact Nat.mul_le_mul_right _ (Nat.le_add_right ..)

/-- The magnitude and the sign determine the pattern. -/
theorem eq_of_magnitude_eq {a b : Bits f} (hs : sign a = sign b) (h : magnitude a = magnitude b) : a = b := by
  have he : expField a = expField b := by
    rcases lt_trichotomy (expField a) (expField b) with hlt | heq | hgt
    · exact absurd h (magnitude_lt_of_expField_lt hlt).ne
    · exact heq
    · exact absurd h (magnitude_lt_of_expField_lt hgt).ne'
  refine bits_ext hs he ?_
  unfold magnitude at h
  rw [he] at h
  split at h
  · exact h
  · exact Nat.add_left_cancel (Nat.mul_right_cancel (Nat.two_pow_pos _) h)

/-- The value and the sign determine the pattern: the sign matters for the two zeros only. -/
theorem eq_of_valRat_eq {a b : Bits f} (hs : sign a = sign b) (h : valRat a = valRat b) : a = b := by
  have hval : val a = val b := le_antisymm (valRat_le_valRat_iff.mp h.le) (valRat_le_valRat_iff.mp h.ge)
  exact eq_of_magnitude_eq hs (by rw [← natAbs_val a, hval, natAbs_val])

/-! ### Rounding a value of the format -/

/-- Every finite value lies below the bound where overflow begins. -/
theorem abs_valRat_lt_overflowBound {b : Bits f} (h : finite b = true) : |valRat b| < overflowBound f := by
  have hF := fracField_lt b
  have hE := finite_iff_expField_lt.mp h
  have hmag : magnitude b ≤ (2 ^ f.p - 1) * 2 ^ (2 * f.bias - 1) := by
    have hp := f.two_pow_p
    unfold magnitude
    split
    · exact le_trans (by omega) (Nat.le_mul_of_pos_right _ (Nat.two_pow_pos _))
    · unfold Fmt.expAllOnes at hE
      gcongr
      · omega
      · exact one_le_two
      · omega
  have hmag' : (magnitude b : ℚ) ≤ (2 ^ f.p - 1) * 2 ^ (2 * f.bias - 1) := by
    calc (magnitude b : ℚ) ≤ ((2 ^ f.p - 1 : Nat) : ℚ) * 2 ^ (2 * f.bias - 1) := by exact_mod_cast hmag
      _ = _ := by rw [Nat.cast_sub Nat.one_le_two_pow]; push_cast; rfl
  have hscale : (2 : ℚ) ^ (2 * f.bias - 1) * 2 ^ f.unit = 2 * 2 ^ (-(f.p : Int)) * 2 ^ (f.bias : Int) := by
    have hbias : 1 ≤ 2 * f.bias := by cases f <;> decide
    rw [← zpow_natCast, ← zpow_add₀ two_ne_zero, mul_assoc, ← zpow_add₀ two_ne_zero, ← zpow_one_add₀ two_ne_zero]
    congr 1
    rw [Fmt.unit, Fmt.emin, f.p_eq, Nat.cast_sub hbias]
    push_cast
    ring
  have hone : (2 : ℚ) ^ f.p * 2 ^ (-(f.p : Int)) = 1 := by
    rw [zpow_neg, zpow_natCast, mul_inv_cancel₀ (by positivity)]
  rw [abs_valRat, overflowBound]
  calc (magnitude b : ℚ) * 2 ^ f.unit ≤ (2 ^ f.p - 1) * 2 ^ (2 * f.bias - 1) * 2 ^ f.unit := by gcongr
    _ = (2 - 2 * 2 ^ (-(f.p : Int))) * 2 ^ (f.bias : Int) := by
      linear_combination (2 ^ f.p - 1) * hscale + 2 * 2 ^ (f.bias : Int) * hone
    _ < _ := by
      gcongr
      linarith [zpow_pos (two_pos : (0 : ℚ) < 2) (-(f.p : Int))]

/-- `RN_T` is finite exactly below the bound where overflow begins. -/
theorem finite_roundNE_iff {n t : Int} {zs : Bool} :
    finite (roundNE f n t zs) = true ↔ |(n : ℚ) * 2 ^ t| < overflowBound f := by
  obtain ⟨hnan, -, hinf, -⟩ := roundNE_spec f n t zs
  rw [← not_le, ← hinf]
  rcases class_cases (roundNE f n t zs) with ⟨h, -⟩ | ⟨-, h⟩ | ⟨-, h⟩
  · rw [hnan] at h; cases h
  · simp [h]
  · simp [h]

/-- A power of two does not change the sign. -/
theorem mul_two_zpow_neg_iff {n t : Int} : (n : ℚ) * 2 ^ t < 0 ↔ n < 0 := by
  have ht : (0 : ℚ) < 2 ^ t := zpow_pos two_pos t
  rw [← zero_mul ((2 : ℚ) ^ t), mul_lt_mul_iff_left₀ ht, Int.cast_lt_zero]

/-- A power of two does not hide a zero. -/
theorem mul_two_zpow_eq_zero_iff {n t : Int} : (n : ℚ) * 2 ^ t = 0 ↔ n = 0 := by
  rw [mul_eq_zero_iff_right (zpow_pos two_pos t).ne', Int.cast_eq_zero]

/-- The sign bit is the sign of a value that is not zero. -/
theorem sign_of_valRat_ne_zero {b : Bits f} (h : valRat b ≠ 0) : sign b = decide (valRat b < 0) := by
  have hnonneg : (0 : ℚ) ≤ magnitude b * 2 ^ f.unit := mul_nonneg (Nat.cast_nonneg _) (zpow_nonneg two_pos.le _)
  rw [valRat_eq] at h ⊢
  cases hs : sign b
  · simpa [hs] using hnonneg
  · simpa [hs] using hnonneg.lt_of_ne' (by simpa [hs] using h)

/-- `RN_T` of the value of a finite pattern, written at any scale, with its sign, is the pattern: nothing is nearer. -/
theorem roundNE_of_valRat_eq {b : Bits f} (hb : finite b = true) {n t : Int} (h : (n : ℚ) * 2 ^ t = valRat b) :
    roundNE f n t (sign b) = b := by
  obtain ⟨-, hsign, -, hnear⟩ := roundNE_spec f n t (sign b)
  have hfin : finite (roundNE f n t (sign b)) = true := by
    rw [finite_roundNE_iff, h]
    exact abs_valRat_lt_overflowBound hb
  refine eq_of_valRat_eq ?_ ?_
  · by_cases hn : n = 0
    · rw [hsign, if_pos hn]
    · have hne : valRat b ≠ 0 := h ▸ mt mul_two_zpow_eq_zero_iff.mp hn
      rw [hsign, if_neg hn, sign_of_valRat_ne_zero hne, ← h, decide_eq_decide, mul_two_zpow_neg_iff]
  · have hle := hnear hfin b hb
    rw [h, sub_self, abs_zero] at hle
    exact sub_eq_zero.mp (abs_nonpos_iff.mp hle)

/-- Settles O46: the value at the finer scale is the value (`roundNE_of_valRat_eq`). -/
theorem roundingARepresentableValueIsExact : Obligations.RoundingARepresentableValueIsExact := by
  unfold Obligations.RoundingARepresentableValueIsExact
  intro f b k hb
  refine roundNE_of_valRat_eq hb ?_
  rw [valRat_eq_val, zpow_sub₀ two_ne_zero, zpow_natCast]
  push_cast
  field_simp

/-- Settles O48 by the monotonicity of `RN_T` on any two zero signs (`not_flt_roundNE`). -/
theorem roundingIsMonotone : Obligations.RoundingIsMonotone := by
  unfold Obligations.RoundingIsMonotone
  exact fun _ _ _ t zs₁ zs₂ h => not_flt_roundNE t zs₁ zs₂ h

end Sys2Proof.Machine
end

section
/-! PROOFS. One rounding of an exact result (spec/40_primitives.md R74, R76 to R78): `RN_T` depends on the value only,
however it is written as `n · 2^t`, so the sum, the product and the fused operation are each one rounding of a rational number. -/

namespace Sys2Proof.Machine

variable {f : Fmt}

/-! ### Nearest even integers -/

/-- `k` is `x` rounded to an integer, nearest, ties to even (R74, R81, R82). -/
def IsNearestEven (k : Int) (x : ℚ) : Prop :=
  |(k : ℚ) - x| ≤ 1 / 2 ∧ (|(k : ℚ) - x| = 1 / 2 → (2 : Int) ∣ k)

/-- The nearest even integer is one: two different ones are adjacent, both at a tie, and one of them is odd. -/
theorem IsNearestEven.unique {k m : Int} {x : ℚ} (hk : IsNearestEven k x) (hm : IsNearestEven m x) : k = m := by
  by_contra hne
  have htie : ∀ {i j : Int}, i ≠ j → IsNearestEven i x → IsNearestEven j x → (2 : Int) ∣ i ∧ |(i : ℚ) - j| ≤ 1 := by
    intro i j hij hi hj
    have habs : (1 : ℚ) ≤ |(i : ℚ) - j| := by exact_mod_cast Int.one_le_abs (sub_ne_zero.mpr hij)
    have htri := abs_sub_le (i : ℚ) x j
    rw [abs_sub_comm x] at htri
    exact ⟨hi.2 (by linarith [hi.1, hj.1]), by linarith [hi.1, hj.1]⟩
  obtain ⟨hk2, hle⟩ := htie hne hk hm
  obtain ⟨hm2, -⟩ := htie (Ne.symm hne) hm hk
  have hle' : |k - m| ≤ 1 := by exact_mod_cast hle
  have := abs_le.mp hle'
  omega

/-- An integer is its own rounding. -/
theorem isNearestEven_self (k : Int) : IsNearestEven k k := by
  rw [IsNearestEven, sub_self, abs_zero]
  exact ⟨by norm_num, fun h => absurd h (by norm_num)⟩

/-- Rounding to the nearest even integer is symmetric about zero. -/
theorem IsNearestEven.neg {k : Int} {x : ℚ} (h : IsNearestEven k x) : IsNearestEven (-k) (-x) := by
  unfold IsNearestEven at h ⊢
  rwa [Int.cast_neg, ← neg_sub', abs_neg, dvd_neg]

/-- The rounding step of the primitives is the nearest even integer. -/
theorem isNearestEven_nearestEven (a : Nat) (j : Int) : IsNearestEven (nearestEven a j) (a * 2 ^ (-j)) := by
  obtain ⟨hle, heven⟩ := nearestEven_half a j
  exact ⟨hle, fun h => Int.natCast_dvd_natCast.mpr (Nat.dvd_of_mod_eq_zero (heven h))⟩

/-- The rounded significand is the nearest even integer in last places. -/
theorem isNearestEven_roundSig (f : Fmt) (a : Nat) (t : Int) :
    IsNearestEven (roundSig f a t) (a * 2 ^ t / roundUlp f a t) := by
  obtain ⟨hle, heven⟩ := roundSig_half f a t
  exact ⟨hle, fun h => Int.natCast_dvd_natCast.mpr (Nat.dvd_of_mod_eq_zero (heven h))⟩

/-! ### `RN_T` depends on the value only -/

/-- A larger magnitude has no lower binade. -/
theorem roundExp_mono {a b : Nat} {t u : Int} (ha : a ≠ 0) (h : (a : ℚ) * 2 ^ t ≤ b * 2 ^ u) :
    roundExp f a t ≤ roundExp f b u := by
  by_cases hmin : roundExp f a t = f.emin
  · exact hmin.le.trans (emin_le_roundExp f b u)
  · have hpow := ((le_scaled ha hmin).trans h).trans_lt (scaled_lt f b u)
    exact Int.lt_add_one_iff.mp ((zpow_lt_zpow_iff_right₀ one_lt_two).mp hpow)

/-- The rounded magnitude depends on the magnitude only, not on its scale. -/
theorem roundAbs_congr {a b : Nat} {t u : Int} (ha : a ≠ 0) (hb : b ≠ 0) (h : (a : ℚ) * 2 ^ t = b * 2 ^ u) :
    roundAbs f a t = roundAbs f b u := by
  have hexp : roundExp f a t = roundExp f b u := le_antisymm (roundExp_mono ha h.le) (roundExp_mono hb h.ge)
  have hulp : roundUlp f a t = roundUlp f b u := by rw [roundUlp, roundUlp, hexp]
  have hsig : roundSig f a t = roundSig f b u := by
    have hnear := isNearestEven_roundSig f a t
    rw [h, hulp] at hnear
    exact_mod_cast hnear.unique (isNearestEven_roundSig f b u)
  rw [roundAbs, roundAbs, hexp, hsig]

/-- The magnitude of a scaled integer. -/
theorem abs_mul_two_zpow (n t : Int) : |(n : ℚ) * 2 ^ t| = n.natAbs * 2 ^ t := by
  rw [abs_mul, abs_of_pos (zpow_pos (two_pos : (0 : ℚ) < 2) t), Nat.cast_natAbs, Int.cast_abs]

/-- The integers that fit the significand. -/
theorem natAbs_lt_two_pow_p_iff {n : Int} : n.natAbs < 2 ^ f.p ↔ |(n : ℚ)| < 2 ^ f.p := by
  rw [← Int.cast_abs, ← Nat.cast_natAbs]
  exact_mod_cast Iff.rfl

/-- `RN_T` depends on the value only, however it is written as `n · 2^t`. -/
theorem roundNE_congr {n m t u : Int} (zs : Bool) (h : (n : ℚ) * 2 ^ t = m * 2 ^ u) :
    roundNE f n t zs = roundNE f m u zs := by
  have hneg : n < 0 ↔ m < 0 := by rw [← mul_two_zpow_neg_iff (t := t), h, mul_two_zpow_neg_iff]
  have hzero : n = 0 ↔ m = 0 := by rw [← mul_two_zpow_eq_zero_iff (t := t), h, mul_two_zpow_eq_zero_iff]
  by_cases hn : n = 0
  · rw [hn, hzero.mp hn, roundNE_zero, roundNE_zero]
  · have hm : m ≠ 0 := mt hzero.mpr hn
    have habs : (n.natAbs : ℚ) * 2 ^ t = m.natAbs * 2 ^ u := by
      rw [← abs_mul_two_zpow, ← abs_mul_two_zpow, h]
    rw [roundNE_of_ne_zero hn, roundNE_of_ne_zero hm,
      roundAbs_congr (Int.natAbs_ne_zero.mpr hn) (Int.natAbs_ne_zero.mpr hm) habs]
    simp only [hneg]

/-- A value that overflows rounds to the infinity of its sign. -/
theorem roundNE_of_overflow {n t : Int} (zs : Bool) (h : overflowBound f ≤ |(n : ℚ) * 2 ^ t|) :
    roundNE f n t zs = if (n : ℚ) * 2 ^ t < 0 then f.ninf else f.pinf := by
  obtain ⟨-, hsign, hinf, -⟩ := roundNE_spec f n t zs
  have hn : n ≠ 0 := by
    rintro rfl
    exact (overflowBound_pos f).not_ge (by simpa using h)
  rw [eq_infinity_of_finf (hinf.mpr h), hsign, if_neg hn]
  simp only [decide_eq_true_eq, mul_two_zpow_neg_iff]

/-- An integer that fits the significand, at a scale the format has, is rounded to itself. -/
theorem roundNE_exact {n t : Int} (zs : Bool) (hn : n.natAbs < 2 ^ f.p) (ht : f.unit ≤ t)
    (hlt : |(n : ℚ) * 2 ^ t| < 2 ^ ((f.bias : Int) + 1)) :
    finite (roundNE f n t zs) = true ∧ valRat (roundNE f n t zs) = n * 2 ^ t := by
  by_cases hzero : n = 0
  · subst hzero
    obtain ⟨-, hfin, hval⟩ := roundNE_zero_spec f t zs
    exact ⟨hfin, by rw [hval, Int.cast_zero, zero_mul]⟩
  have ha : n.natAbs ≠ 0 := Int.natAbs_ne_zero.mpr hzero
  have hlog : n.natAbs.log2 < f.p := (Nat.log2_lt ha).mpr hn
  have hscale : roundExp f n.natAbs t - (f.shift : Int) - t ≤ 0 := by
    have hp := f.p_eq
    unfold roundExp
    unfold Fmt.unit at ht
    omega
  have hsig : (roundSig f n.natAbs t : ℚ) * roundUlp f n.natAbs t = n.natAbs * 2 ^ t := by
    rw [roundSig, roundUlp, nearestEven_nonpos _ hscale, Nat.cast_mul, Nat.cast_pow, ← zpow_natCast,
      Int.toNat_of_nonneg (by omega), mul_assoc, Nat.cast_ofNat, ← zpow_add₀ two_ne_zero]
    congr 2
    ring
  have hno : ¬ RoundOverflows f n.natAbs t := by
    rw [abs_mul_two_zpow] at hlt
    rintro (hexp | ⟨hexp, hcarry⟩)
    · exact hlt.not_ge ((zpow_le_zpow_right₀ one_le_two hexp).trans (le_scaled ha (f.emin_le_bias.trans_lt hexp).ne'))
    · refine hlt.ne ?_
      rw [← hsig, hcarry, f.two_pow_p, Nat.cast_mul, Nat.cast_pow, mul_assoc, Nat.cast_ofNat, ← two_zpow_roundExp, hexp,
        zpow_add_one₀ two_ne_zero, mul_comm]
  obtain ⟨hfin, hval, -⟩ := roundNE_of_not_overflows hzero zs hno
  refine ⟨hfin, ?_⟩
  have hsn : (n.sign : ℚ) * n.natAbs = n := by
    rw [← Int.cast_natCast, ← Int.cast_mul, Int.sign_mul_natAbs]
  rw [hval, hsig, ← mul_assoc, hsn]

/-! ### Negation -/

/-- `fneg` flips the sign and keeps the other fields (R79). -/
@[simp] theorem sign_fneg (b : Bits f) : sign (fneg b) = !sign b := by
  have h : f.signBit.msb = true := by cases f <;> decide
  rw [sign, fneg, BitVec.msb_xor, h, Bool.xor_true, sign]

@[simp] theorem expField_fneg (b : Bits f) : expField (fneg b) = expField b := by
  have h : f.signBit.extractLsb' f.shift f.ebits = 0#f.ebits := by cases f <;> decide
  rw [expField, fneg, BitVec.extractLsb'_xor, h, BitVec.xor_zero, expField]

@[simp] theorem fracField_fneg (b : Bits f) : fracField (fneg b) = fracField b := by
  have h : f.signBit.extractLsb' 0 f.shift = 0#f.shift := by cases f <;> decide
  rw [fracField, fneg, BitVec.extractLsb'_xor, h, BitVec.xor_zero, fracField]

@[simp] theorem finite_fneg (b : Bits f) : finite (fneg b) = finite b := by simp [finite]

@[simp] theorem magnitude_fneg (b : Bits f) : magnitude (fneg b) = magnitude b := by simp [magnitude]

/-- The negated pattern has the negated value. -/
@[simp] theorem valRat_fneg (b : Bits f) : valRat (fneg b) = -valRat b := by
  rw [valRat_eq, valRat_eq, sign_fneg, magnitude_fneg]
  cases sign b <;> simp

/-! ### The rounded sum -/

/-- The exact sum as a whole number of units. -/
theorem valRat_add_eq (a b : Bits f) : ((val a + val b : Int) : ℚ) * 2 ^ f.unit = valRat a + valRat b := by
  rw [valRat_eq_val, valRat_eq_val, Int.cast_add, add_mul]

/-- The sum of finite values is one rounding of the exact sum, however it is written (R76). -/
theorem fadd_of_finite {a b : Bits f} (ha : finite a = true) (hb : finite b = true) {n t : Int}
    (h : (n : ℚ) * 2 ^ t = valRat a + valRat b) : fadd a b = roundNE f n t (sign a && sign b) := by
  have hsum : fadd a b = roundNE f (val a + val b) f.unit (sign a && sign b) := by
    simp [fadd, fnan_of_finite ha, fnan_of_finite hb, finf_of_finite ha, finf_of_finite hb]
  rw [hsum]
  exact roundNE_congr _ ((valRat_add_eq a b).trans h.symm)

/-- A sum of finite values that rounds beyond the largest finite value is an infinity (R76). -/
theorem fadd_of_overflow {a b : Bits f} (ha : finite a = true) (hb : finite b = true)
    (h : overflowBound f ≤ |valRat a + valRat b|) : fadd a b = if valRat a + valRat b < 0 then f.ninf else f.pinf := by
  have hsum := valRat_add_eq a b
  rw [fadd_of_finite ha hb hsum, ← hsum]
  exact roundNE_of_overflow _ (hsum ▸ h)

/-- A value and its negation cancel to `+0` (R76). -/
theorem fadd_fneg {a : Bits f} (ha : finite a = true) : fadd a (fneg a) = f.pzero := by
  have hsum : ((0 : Int) : ℚ) * 2 ^ (0 : Int) = valRat a + valRat (fneg a) := by simp
  rw [fadd_of_finite ha (by simpa using ha) hsum, roundNE_zero, sign_fneg, Bool.and_not_self]
  rfl

/-- Settles O50: the cases of the definition, and one rounding of the exact sum (`fadd_of_finite`). -/
theorem sumIsExactThenRounded : Obligations.SumIsExactThenRounded := by
  unfold Obligations.SumIsExactThenRounded
  refine ⟨fun f a b => ⟨?_, ?_, ?_, ?_, fun ha hb => ⟨fun n t => fadd_of_finite ha hb, fadd_of_overflow ha hb⟩, fadd_fneg⟩,
    fun f => ?_, by decide +kernel, by decide +kernel, by decide +kernel⟩
  · rintro (h | h) <;> simp [fadd, h]
  · intro ha hb
    by_cases hs : sign a = sign b <;> simp [fadd, fnan_of_finf, ha, hb, hs]
  · intro ha hb
    simp [fadd, fnan_of_finf ha, fnan_of_finite hb, ha, finf_of_finite hb]
  · intro ha hb
    simp [fadd, fnan_of_finite ha, fnan_of_finf hb, finf_of_finite ha, hb]
  · cases f <;> decide +kernel

/-! ### The rounded product -/

/-- The exact product as a whole number of squared units. -/
theorem valRat_mul_eq (a b : Bits f) : ((val a * val b : Int) : ℚ) * 2 ^ (2 * f.unit) = valRat a * valRat b := by
  rw [valRat_eq_val, valRat_eq_val, Int.cast_mul, two_mul, zpow_add₀ two_ne_zero]
  ring

/-- The product of finite values is one rounding of the exact product, however it is written (R77). -/
theorem fmul_eq_roundNE {a b : Bits f} (ha : finite a = true) (hb : finite b = true) {n t : Int}
    (h : (n : ℚ) * 2 ^ t = valRat a * valRat b) : fmul a b = roundNE f n t (sign a ^^ sign b) := by
  rw [fmul_of_finite ha hb]
  exact roundNE_congr _ ((valRat_mul_eq a b).trans h.symm)

/-- The value of a normal pattern is a signed significand at the scale of its last place (R71). -/
theorem exists_significand_of_normal {b : Bits f} (h : 1 ≤ expField b) :
    ∃ n : Int, n.natAbs < 2 ^ f.p ∧ valRat b = n * 2 ^ ((expField b : Int) - 1 + f.unit) := by
  have hF := fracField_lt b
  have hp := f.two_pow_p
  refine ⟨if sign b then -(2 ^ f.shift + fracField b : Nat) else (2 ^ f.shift + fracField b : Nat), by split <;> omega, ?_⟩
  have hscale : (2 : ℚ) ^ ((expField b : Int) - 1 + f.unit) = 2 ^ (expField b - 1) * 2 ^ f.unit := by
    rw [zpow_add₀ two_ne_zero, ← zpow_natCast]
    congr 2
    omega
  rw [valRat_eq, magnitude_of_normal h, hscale]
  split <;> push_cast <;> ring

/-- A power of two times a normal value is exact where the product neither overflows nor is subnormal (R77): the product has
the significand of the normal value. -/
theorem fmul_powerOfTwo_exact {a b : Bits f} (ha : finite a = true) (hb : finite b = true) (hfrac : fracField a = 0)
    (hEa : 1 ≤ expField a) (hEb : 1 ≤ expField b) (hlo : (2 : ℚ) ^ f.emin ≤ |valRat a * valRat b|)
    (hhi : |valRat a * valRat b| < (2 : ℚ) ^ ((f.bias : Int) + 1)) :
    finite (fmul a b) = true ∧ valRat (fmul a b) = valRat a * valRat b := by
  obtain ⟨n, hn, hvb⟩ := exists_significand_of_normal hEb
  obtain ⟨t, ht⟩ : ∃ t : Int, t = (expField a : Int) - f.bias + ((expField b : Int) - 1 + f.unit) := ⟨_, rfl⟩
  obtain ⟨m, hm, hprod⟩ : ∃ m : Int, m.natAbs < 2 ^ f.p ∧ (m : ℚ) * 2 ^ t = valRat a * valRat b := by
    refine ⟨if sign a then -n else n, by split <;> omega, ?_⟩
    rw [valRat_of_normal hEa, hfrac, hvb, ht, zpow_add₀ two_ne_zero ((expField a : Int) - f.bias)]
    split <;> push_cast <;> ring
  have hscale : f.unit ≤ t := by
    have hpow : (2 : ℚ) ^ f.emin < 2 ^ ((f.p : Int) + t) := by
      rw [← hprod, abs_mul, abs_of_pos (zpow_pos (two_pos : (0 : ℚ) < 2) t)] at hlo
      rw [zpow_add₀ two_ne_zero, zpow_natCast]
      exact hlo.trans_lt (mul_lt_mul_of_pos_right (natAbs_lt_two_pow_p_iff.mp hm) (zpow_pos two_pos t))
    have hexp := (zpow_lt_zpow_iff_right₀ one_lt_two).mp hpow
    have hp := f.p_eq
    unfold Fmt.unit
    omega
  rw [fmul_eq_roundNE ha hb hprod, ← hprod]
  exact roundNE_exact _ hm hscale (hprod ▸ hhi)

/-- Settles O51: the cases of the definition, and one rounding of the exact product (`fmul_eq_roundNE`). -/
theorem productIsExactThenRounded : Obligations.ProductIsExactThenRounded := by
  unfold Obligations.ProductIsExactThenRounded
  refine ⟨fun f a b => ⟨?_, ?_, ?_, fun ha hb => ⟨fun n t => fmul_eq_roundNE ha hb, fmul_powerOfTwo_exact ha hb⟩⟩,
    by decide +kernel, by decide +kernel, by decide +kernel⟩
  · rintro (h | h) <;> simp [fmul, h]
  · intro hinf hzero
    have hinf' : (finf a || finf b) = true := by simpa using hinf
    have hzero' : (fzero a || fzero b) = true := by simpa using hzero
    simp [fmul, hinf', hzero']
  · intro hna hnb hinf hza hzb
    have hinf' : (finf a || finf b) = true := by simpa using hinf
    cases hsa : sign a <;> cases hsb : sign b <;> simp [fmul, hna, hnb, hinf', hza, hzb, hsa, hsb]

/-! ### The fused multiply-add -/

/-- One, counted in units of the smallest subnormal. -/
theorem two_pow_neg_unit_mul (f : Fmt) : ((2 ^ (-f.unit).toNat : Nat) : ℚ) * 2 ^ f.unit = 1 := by
  rw [Nat.cast_pow, ← zpow_natCast, Int.toNat_of_nonneg (neg_nonneg.mpr f.unit_neg.le), Nat.cast_ofNat,
    ← zpow_add₀ two_ne_zero, neg_add_cancel, zpow_zero]

/-- The exact sum of product and addend, as the fused operation counts it: in squared units. -/
def fusedUnits (a b c : Bits f) : Int := val a * val b + val c * ((2 ^ (-f.unit).toNat : Nat) : Int)

/-- Its value. -/
theorem fusedUnits_mul (a b c : Bits f) :
    (fusedUnits a b c : ℚ) * 2 ^ (2 * f.unit) = valRat a * valRat b + valRat c := by
  rw [← valRat_mul_eq, valRat_eq_val c, fusedUnits, two_mul, zpow_add₀ two_ne_zero, Int.cast_add, Int.cast_mul (val c),
    Int.cast_natCast]
  linear_combination (val c : ℚ) * 2 ^ f.unit * two_pow_neg_unit_mul f

/-- The fused operation on finite values (R78). -/
theorem fma_of_finite {a b c : Bits f} (ha : finite a = true) (hb : finite b = true) (hc : finite c = true) :
    fma a b c = if fusedUnits a b c = 0 then roundNE f 0 0 (decide (val a * val b = 0) && (sign a ^^ sign b) && sign c)
      else roundNE f (fusedUnits a b c) (2 * f.unit) false := by
  simp [fma, fnan_of_finite ha, fnan_of_finite hb, fnan_of_finite hc, finf_of_finite ha, finf_of_finite hb,
    finf_of_finite hc, fusedUnits]

/-- Where it is not zero, the exact `a·b + c` is rounded once, however it is written (R78). -/
theorem fma_eq_roundNE {a b c : Bits f} (ha : finite a = true) (hb : finite b = true) (hc : finite c = true) {n t : Int}
    (hn : n ≠ 0) (h : (n : ℚ) * 2 ^ t = valRat a * valRat b + valRat c) : fma a b c = roundNE f n t false := by
  have hq := (fusedUnits_mul a b c).trans h.symm
  have hne : fusedUnits a b c ≠ 0 := by
    rwa [ne_eq, ← mul_two_zpow_eq_zero_iff (t := 2 * f.unit), hq, mul_two_zpow_eq_zero_iff]
  rw [fma_of_finite ha hb hc, if_neg hne]
  exact roundNE_congr _ hq

/-- An exact zero is `-0` only where a zero product and a zero addend are both negative (R78). -/
theorem fma_of_zero {a b c : Bits f} (ha : finite a = true) (hb : finite b = true) (hc : finite c = true)
    (h : valRat a * valRat b + valRat c = 0) :
    fma a b c = if valRat a * valRat b = 0 ∧ sign a ≠ sign b ∧ sign c = true then f.signBit else f.pzero := by
  have hunits : fusedUnits a b c = 0 := mul_two_zpow_eq_zero_iff.mp ((fusedUnits_mul a b c).trans h)
  have hprod : valRat a * valRat b = 0 ↔ val a * val b = 0 := by
    rw [← valRat_mul_eq, mul_two_zpow_eq_zero_iff]
  rw [fma_of_finite ha hb hc, if_pos hunits, roundNE_zero]
  simp only [hprod, Bool.and_eq_true, decide_eq_true_eq, and_assoc, bne_iff_ne]

/-- Settles O52: the cases of the definition, and one rounding of the exact `a·b + c` (`fma_eq_roundNE`); a negated
operand negates the product. -/
theorem fusedIsRoundedOnce : Obligations.FusedIsRoundedOnce := by
  unfold Obligations.FusedIsRoundedOnce
  refine ⟨fun f a b c => ⟨?_, ?_, ?_, ?_, fun ha hb hc => ⟨fun n t => fma_eq_roundNE ha hb hc, fma_of_zero ha hb hc, ?_⟩⟩,
    by decide +kernel, by decide +kernel⟩
  · rintro (h | h | h) <;> simp [fma, h]
  · intro hnc hinf hzero
    have hinf' : (finf a || finf b) = true := by simpa using hinf
    have hzero' : (fzero a || fzero b) = true := by simpa using hzero
    simp [fma, hinf', hzero']
  · intro hna hnb hnc hinf hza hzb
    have hinf' : (finf a || finf b) = true := by simpa using hinf
    cases hsa : sign a <;> cases hsb : sign b <;> simp [fma, hna, hnb, hnc, hinf', hza, hzb, hsa, hsb]
  · intro ha hb hc
    simp [fma, fnan_of_finite ha, fnan_of_finite hb, fnan_of_finf hc, finf_of_finite ha, finf_of_finite hb, hc]
  · intro n t hn h
    refine fma_eq_roundNE (by simpa using ha) hb hc hn ?_
    rw [h, valRat_fneg]
    ring

end Sys2Proof.Machine
end

section
/-! PROOFS. Rounding to an integer, the conversions and the comparisons (spec/40_primitives.md R81 to R84). -/

namespace Sys2Proof.Machine

variable {f : Fmt}

/-! ### Rounding to an integer -/

/-- `roundedInt` is the nearest even integer to the value (R81, R82). -/
theorem isNearestEven_roundedInt (a : Bits f) : IsNearestEven (roundedInt a) (valRat a) := by
  have hmag := isNearestEven_nearestEven (magnitude a) (-f.unit)
  rw [neg_neg] at hmag
  rw [← signed_nearestEven, valRat_eq]
  split
  · rw [neg_one_mul]
    exact hmag.neg
  · rwa [one_mul]

/-- The first integral binade is `2^(p-1)` in value (R81). -/
theorem two_pow_precision_mul (f : Fmt) : (2 : ℚ) ^ (f.p - 1) = 2 ^ (f.shift + (-f.unit).toNat) * 2 ^ f.unit := by
  have hp : f.p - 1 = f.shift := by rw [f.p_eq, Nat.add_sub_cancel]
  have hone := two_pow_neg_unit_mul f
  push_cast at hone
  rw [hp, pow_add, mul_assoc, hone, mul_one]

/-- A value of magnitude at least `2^(p-1)` is an integer (R81). -/
theorem valRat_eq_roundedInt_of_le {a : Bits f} (h : (2 : ℚ) ^ (f.p - 1) ≤ |valRat a|) :
    valRat a = roundedInt a := by
  have hu : (0 : ℚ) < 2 ^ f.unit := zpow_pos two_pos _
  have hle : 2 ^ (f.shift + (-f.unit).toNat) ≤ magnitude a := by
    rw [two_pow_precision_mul, abs_valRat, mul_le_mul_iff_left₀ hu] at h
    exact_mod_cast h
  obtain ⟨c, hc⟩ := (magnitude_lt_or_dvd a (-f.unit).toNat).resolve_left hle.not_gt
  have hint : valRat a = ((if sign a then -c else c : Int) : ℚ) := by
    rw [valRat_eq, hc, Nat.cast_mul, mul_right_comm, two_pow_neg_unit_mul, one_mul]
    split <;> simp
  have hself := isNearestEven_self (if sign a then -(c : Int) else c)
  rw [← hint] at hself
  rw [(isNearestEven_roundedInt a).unique hself, hint]

/-- A value of magnitude below `2^(p-1)` rounds to an integer that fits the significand. -/
theorem natAbs_roundedInt_lt {a : Bits f} (h : |valRat a| < (2 : ℚ) ^ (f.p - 1)) : (roundedInt a).natAbs < 2 ^ f.p := by
  have hp : f.p - 1 + 1 = f.p := by rw [f.p_eq, Nat.add_sub_cancel]
  have hone : (1 : ℚ) ≤ 2 ^ (f.p - 1) := one_le_pow₀ one_le_two
  have htri := abs_sub_abs_le_abs_sub (roundedInt a : ℚ) (valRat a)
  rw [natAbs_lt_two_pow_p_iff, ← hp, pow_succ]
  linarith [(isNearestEven_roundedInt a).1]

/-- The integers that fit the significand lie below the end of the format's range. -/
theorem two_pow_p_le (f : Fmt) : (2 : ℚ) ^ f.p ≤ 2 ^ ((f.bias : Int) + 1) := by
  rw [← zpow_natCast]
  exact zpow_le_zpow_right₀ one_le_two (by cases f <;> decide)

/-- An integer that fits the significand is a value of the format. -/
theorem roundNE_int_exact {n : Int} (zs : Bool) (hn : n.natAbs < 2 ^ f.p) :
    finite (roundNE f n 0 zs) = true ∧ valRat (roundNE f n 0 zs) = n := by
  have h := roundNE_exact (f := f) (t := 0) zs hn f.unit_neg.le
    (by rw [zpow_zero, mul_one]; exact (natAbs_lt_two_pow_p_iff.mp hn).trans_le (two_pow_p_le f))
  rwa [zpow_zero, mul_one] at h

/-- `rint` leaves a value of magnitude at least `2^(p-1)` unchanged (R81). -/
theorem rint_eq_self {a : Bits f} (ha : finite a = true) (h : (2 : ℚ) ^ (f.p - 1) ≤ |valRat a|) : rint a = a := by
  rw [rint_of_finite ha]
  exact roundNE_of_valRat_eq ha (by rw [valRat_eq_roundedInt_of_le h, zpow_zero, mul_one])

/-- `rint` of a finite value is finite, and its value the nearest even integer (R81). -/
theorem valRat_rint {a : Bits f} (ha : finite a = true) : finite (rint a) = true ∧ valRat (rint a) = roundedInt a := by
  rcases le_or_gt ((2 : ℚ) ^ (f.p - 1)) |valRat a| with h | h
  · rw [rint_eq_self ha h]
    exact ⟨ha, valRat_eq_roundedInt_of_le h⟩
  · rw [rint_of_finite ha]
    exact roundNE_int_exact _ (natAbs_roundedInt_lt h)

/-- `rint` keeps the sign, even on a zero (R81). -/
theorem sign_rint {a : Bits f} (ha : finite a = true) : sign (rint a) = sign a := by
  obtain ⟨-, hsign, -⟩ := roundNE_spec f (roundedInt a) 0 (sign a)
  have hround := signed_nearestEven a
  rw [rint_of_finite ha, hsign]
  cases hs : sign a with
  | false =>
    rw [hs, if_neg Bool.false_ne_true] at hround
    simp [← hround]
  | true =>
    rw [hs, if_pos rfl] at hround
    split
    · rfl
    · rw [decide_eq_true_eq]
      omega

/-- Settles O53: the value is the nearest even integer (`valRat_rint`). -/
theorem rintRoundsToIntegral : Obligations.RintRoundsToIntegral := by
  unfold Obligations.RintRoundsToIntegral
  refine fun f a => ⟨fun h => by simp [rint, h], rint_of_finf, fun ha => ?_, by decide +kernel⟩
  obtain ⟨hfin, hval⟩ := valRat_rint ha
  exact ⟨hfin, sign_rint ha, ⟨roundedInt a, hval, isNearestEven_roundedInt a⟩, rint_eq_self ha⟩

/-! ### The conversions -/

/-- Settles O54: a finite value is its nearest even integer, saturated (`toInt_f2i_of_finite`). -/
theorem conversionToIntegerSaturates : Obligations.ConversionToIntegerSaturates := by
  unfold Obligations.ConversionToIntegerSaturates
  have hmax : ∀ f : Fmt, intMax f = 2 ^ (f.w - 1) - 1 := fun f => by rw [intMax]; push_cast; rfl
  have hmin : ∀ f : Fmt, intMin f = -2 ^ (f.w - 1) := fun f => by rw [intMin]; push_cast; rfl
  refine fun f a => ⟨fun h => by simp [f2i, h], ?_, ?_, fun ha => ?_, by decide +kernel⟩
  · rintro rfl
    obtain ⟨hinf, hsign⟩ := finf_pinf f
    rw [toInt_f2i_of_finf (fnan_of_finf hinf) hinf, hsign, ← hmax]
    rfl
  · rintro rfl
    obtain ⟨hinf, hsign⟩ : finf f.ninf = true ∧ sign f.ninf = true := by cases f <;> decide
    rw [toInt_f2i_of_finf (fnan_of_finf hinf) hinf, hsign, ← hmin]
    rfl
  · obtain ⟨hhalf, htie⟩ := isNearestEven_roundedInt a
    exact ⟨roundedInt a, hhalf, htie, by rw [toInt_f2i_of_finite ha, hmax, hmin]⟩

/-- `f2i` undoes `i2f` where the integer is a value of the format (R82, R83). -/
theorem f2i_of_valRat_eq {a : Bits f} (ha : finite a = true) {n : IntT f} (h : valRat a = n.toInt) : f2i a = n := by
  have hk : roundedInt a = n.toInt := (h ▸ isNearestEven_roundedInt a).unique (isNearestEven_self _)
  obtain ⟨hlo, hhi⟩ := toInt_mem n
  apply BitVec.eq_of_toInt_eq
  rw [toInt_f2i_of_finite ha, hk, max_eq_right hlo, min_eq_right hhi]

/-- Settles O55: `RN_T` depends on the value only (`roundNE_congr`), and an integer below `2^p` is a value of the format
(`roundNE_int_exact`). -/
theorem conversionFromIntegerIsExact : Obligations.ConversionFromIntegerIsExact := by
  unfold Obligations.ConversionFromIntegerIsExact
  refine ⟨fun f n m t h => ?_, fun f n h => ?_, fun f => ?_, by decide +kernel, by decide +kernel, by decide +kernel⟩
  · exact roundNE_congr false (by rw [h, zpow_zero, mul_one])
  · have hn : n.toInt.natAbs < 2 ^ f.p := by
      rw [Int.abs_eq_natAbs] at h
      exact_mod_cast h
    obtain ⟨hfin, hval⟩ := roundNE_int_exact (f := f) false hn
    exact ⟨hfin, hval, f2i_of_valRat_eq hfin hval⟩
  · cases f <;> decide +kernel

/-! ### The comparisons -/

/-- The values count the units in order, strictly. -/
theorem valRat_lt_valRat_iff {a b : Bits f} : valRat a < valRat b ↔ val a < val b := by
  rw [← not_le, valRat_le_valRat_iff, not_le]

/-- Equal values are equal counts of the unit. -/
theorem valRat_inj {a b : Bits f} : valRat a = valRat b ↔ val a = val b := by
  rw [le_antisymm_iff, le_antisymm_iff, valRat_le_valRat_iff, valRat_le_valRat_iff]

/-- A finite value is ordered by itself (R84). -/
theorem ord_of_finite {a : Bits f} (ha : finite a = true) : ord a = .fin (val a) := by
  simp [ord, finf_of_finite ha]

/-- `+∞` lies at the upper end and `−∞` at the lower (R84). -/
theorem ord_infinity (f : Fmt) : ord f.pinf = .posInf ∧ ord f.ninf = .negInf := by
  cases f <;> decide

/-- Settles O56: each comparison is the order of the values the operands stand for. -/
theorem comparisonsFollowValues : Obligations.ComparisonsFollowValues := by
  unfold Obligations.ComparisonsFollowValues
  intro f a b
  refine ⟨?_, rfl, fun ha hb => ?_, fun ha => ?_, by cases f <;> decide +kernel⟩
  · rintro (h | h) <;> simp [flt, fgt, feq, h]
  · rw [valRat_lt_valRat_iff, valRat_inj]
    simp [flt, feq, fnan_of_finite ha, fnan_of_finite hb, ord_of_finite ha, ord_of_finite hb, OrdVal.lt]
  · obtain ⟨hp, hn⟩ := ord_infinity f
    obtain ⟨hnp, hnn⟩ : fnan f.pinf = false ∧ fnan f.ninf = false := by cases f <;> decide
    simp [flt, feq, fnan_of_finite ha, ord_of_finite ha, hp, hn, hnp, hnn, OrdVal.lt]

end Sys2Proof.Machine
end

section
/-! PROOFS. Signs and zeros through the primitives (spec/40_primitives.md R71 to R82): what a positive factor, a conversion and a
zero product leave of their operands. -/

namespace Sys2Proof.Machine

variable {f : Fmt}

/-! ### Zeros and small values -/

/-- An exponent field of zero is finite (R71). -/
theorem finite_of_expField_zero {b : Bits f} (h : expField b = 0) : finite b = true := by
  rw [finite_iff_expField_lt, h]
  exact Nat.succ_pos _

/-- Zeros and subnormals lie below the smallest normal value (R71). -/
theorem abs_valRat_lt_of_expField_zero {b : Bits f} (h : expField b = 0) : |valRat b| < 2 ^ f.emin := by
  have hlt : (magnitude b : ℚ) < 2 ^ f.shift := by exact_mod_cast h ▸ magnitude_lt b
  have hscale : (2 : ℚ) ^ f.emin = 2 ^ f.shift * 2 ^ f.unit := by
    rw [← zpow_natCast, ← zpow_add₀ two_ne_zero, Fmt.unit, add_sub_cancel]
  rw [abs_valRat, hscale]
  exact mul_lt_mul_of_pos_right hlt (zpow_pos two_pos _)

/-- The two zeros, by their fields (R71). -/
theorem fzero_iff {b : Bits f} : fzero b = true ↔ expField b = 0 ∧ fracField b = 0 := by
  rw [fzero, Bool.and_eq_true, beq_iff_eq, beq_iff_eq]

/-- A pattern is a zero exactly where its value is 0 (R71). -/
theorem fzero_iff_valRat {b : Bits f} : fzero b = true ↔ valRat b = 0 := by
  rw [← abs_eq_zero, abs_valRat, mul_eq_zero_iff_right (zpow_pos two_pos _).ne', Nat.cast_eq_zero, fzero_iff, magnitude]
  split
  next h => simp [h]
  next h => simp [h]

/-- A zero is finite (R71). -/
theorem finite_of_fzero {b : Bits f} (h : fzero b = true) : finite b = true :=
  finite_of_expField_zero (fzero_iff.mp h).1

/-! ### Signs -/

/-- Negation keeps a NaN a NaN (R79). -/
@[simp] theorem fnan_fneg (b : Bits f) : fnan (fneg b) = fnan b := by simp [fnan]

/-- A positive value has sign bit 0. -/
theorem sign_of_finitePositive {b : Bits f} (h : finitePositive b = true) : sign b = false := by
  have hpos := valRat_pos_iff.mpr (finitePositive_iff.mp h).2
  rw [sign_of_valRat_ne_zero hpos.ne', decide_eq_false_iff_not]
  exact hpos.not_gt

/-- A positive factor keeps the sign of the other, on zeros and infinities too (R77). -/
theorem sign_fmul_of_finitePositive {a b : Bits f} (ha : fnan a = false) (hb : finitePositive b = true) :
    sign (fmul a b) = sign a := by
  obtain ⟨hfin, hpos⟩ := finitePositive_iff.mp hb
  have hsb := sign_of_finitePositive hb
  rcases class_cases a with ⟨h, -⟩ | ⟨-, hinf, hnfin⟩ | ⟨-, -, hfa⟩
  · rw [ha] at h; cases h
  · have hza : fzero a = false := by
      rw [← Bool.not_eq_true]
      exact fun hz => by rw [finite_of_fzero hz] at hnfin; cases hnfin
    have hzb : fzero b = false := by
      rw [← Bool.not_eq_true, fzero_iff_valRat]
      exact (valRat_pos_iff.mpr hpos).ne'
    have hsign : sign f.pinf = false ∧ sign f.ninf = true := by cases f <;> decide
    cases hsa : sign a <;> simp [fmul, ha, fnan_of_finite hfin, hinf, hza, hzb, hsa, hsb, hsign]
  · obtain ⟨-, hsign, -⟩ := roundNE_spec f (val a * val b) (2 * f.unit) (sign a ^^ sign b)
    rw [fmul_of_finite hfa hfin, hsign, hsb, Bool.xor_false]
    split
    next => rfl
    next hne =>
      have hneg : val a * val b < 0 ↔ val a < 0 := by simp [Int.mul_neg_iff, hpos, hpos.not_gt]
      have hva : valRat a ≠ 0 := by
        rw [valRat_eq_val, ne_eq, mul_two_zpow_eq_zero_iff]
        exact left_ne_zero_of_mul hne
      rw [sign_of_valRat_ne_zero hva, decide_eq_decide, hneg, valRat_eq_val, mul_two_zpow_neg_iff]

/-- A NaN converts to 0 (R82). -/
theorem fnan_of_f2i_ne_zero {a : Bits f} (h : (f2i a).toInt ≠ 0) : fnan a = false := by
  rw [← Bool.not_eq_true]
  exact fun hnan => h (by simp [f2i, hnan])

/-- The sign of a pattern is that of the integer it converts to, where that is not 0 (R82). -/
theorem sign_of_f2i_ne_zero {a : Bits f} (h : (f2i a).toInt ≠ 0) : sign a = decide ((f2i a).toInt < 0) := by
  have hlt : intMin f < 0 ∧ 0 < intMax f := by cases f <;> decide
  have hnan := fnan_of_f2i_ne_zero h
  rcases class_cases a with ⟨h', -⟩ | ⟨-, hinf, -⟩ | ⟨-, -, hfin⟩
  · rw [hnan] at h'; cases h'
  · rw [toInt_f2i_of_finf hnan hinf]
    cases sign a <;> simp <;> omega
  · have hround := signed_nearestEven a
    rw [toInt_f2i_of_finite hfin] at h ⊢
    cases hs : sign a <;> simp [hs] at hround ⊢ <;> omega

/-! ### Rounding to an integer, and a zero product -/

/-- `rint` makes a finite value of finite values only (R81). -/
theorem finite_of_finite_rint {a : Bits f} (h : finite (rint a) = true) : finite a = true := by
  rcases class_cases a with ⟨hnan, -⟩ | ⟨-, hinf, -⟩ | ⟨-, -, hfin⟩
  · have hq : finite f.qnan = false := by cases f <;> decide
    simp [rint, hnan, hq] at h
  · rwa [rint_of_finf hinf] at h
  · exact hfin

/-- A product of magnitude at most 1/4 rounds to the integer 0: it is at most 1/2 after its own rounding, and a tie goes to the
even integer (R77, R81). -/
theorem fzero_rint_fmul {a b : Bits f} (ha : finite a = true) (hb : finite b = true) (h : |valRat a * valRat b| ≤ 1 / 4) :
    fzero (rint (fmul a b)) = true := by
  obtain ⟨-, -, -, hnear⟩ := roundNE_spec f (val a * val b) (2 * f.unit) (sign a ^^ sign b)
  rw [← fmul_of_finite ha hb, valRat_mul_eq] at hnear
  have hbound : (1 : ℚ) ≤ overflowBound f :=
    (one_le_zpow₀ one_le_two (Int.natCast_nonneg _)).trans (overflow_bound_mem f).1
  have hfin : finite (fmul a b) = true := by
    rw [fmul_of_finite ha hb, finite_roundNE_iff, valRat_mul_eq]
    linarith
  have hhalf : |valRat (fmul a b)| ≤ 1 / 2 := by
    obtain ⟨-, hzfin, hzval⟩ := roundNE_zero_spec f 0 false
    have hle := hnear hfin _ hzfin
    rw [hzval, zero_sub, abs_neg] at hle
    have htri := abs_sub_abs_le_abs_sub (valRat (fmul a b)) (valRat a * valRat b)
    linarith
  have hzero : IsNearestEven 0 (valRat (fmul a b)) := by
    rw [IsNearestEven, Int.cast_zero, zero_sub, abs_neg]
    exact ⟨hhalf, fun _ => dvd_zero 2⟩
  rw [fzero_iff_valRat, (valRat_rint hfin).2, (isNearestEven_roundedInt _).unique hzero, Int.cast_zero]

/-- The addend of a fused operation whose product is a zero of the other sign comes back unchanged, or as `+0` where it is a
zero itself (R78). -/
theorem fma_of_product_zero {a b c : Bits f} (ha : finite a = true) (hb : finite b = true) (hc : finite c = true)
    (h : valRat a * valRat b = 0) (hs : (sign a ^^ sign b) = !sign c) :
    fma a b c = if fzero c then f.pzero else c := by
  by_cases hz : fzero c = true
  · rw [if_pos hz, fma_of_zero ha hb hc (by rw [h, fzero_iff_valRat.mp hz, add_zero]), if_neg]
    rintro ⟨-, hab, hsc⟩
    exact hab (by simpa [hsc] using hs)
  · have hval : ((val c : Int) : ℚ) * 2 ^ f.unit = valRat c := (valRat_eq_val c).symm
    have hne : val c ≠ 0 := by rwa [fzero_iff_valRat, ← hval, mul_two_zpow_eq_zero_iff] at hz
    rw [if_neg hz, fma_eq_roundNE ha hb hc hne (by rw [hval, h, zero_add]), roundNE_of_ne_zero hne,
      ← roundNE_of_ne_zero hne f.unit (sign c), roundNE_of_valRat_eq hc hval]

end Sys2Proof.Machine
end

section
/-! PROOFS. The range reducer (spec/41_range_reducer.md R100 to R112): the split of `N`, the two reduction paths, the quotient of
zero, and the exact products of the reference ROM. -/

namespace Sys2Proof.Machine

open Sys2Proof.Safety

variable {f : Fmt}

/-! ### The split of `N` -/

/-- `N2` is `N` modulo 32, never negative (R104). -/
theorem toInt_tableIndex (n : IntT f) : (tableIndex n).toInt = n.toInt % 32 := by
  have hlt := n.isLt
  have hmod := toNat_tableIndex n
  rw [BitVec.toInt_eq_toNat_cond, BitVec.toInt_eq_toNat_cond]
  cases f <;> simp only [Fmt.w] at * <;> split <;> split <;> omega

/-- `N1` is `N` with its remainder taken off: the subtraction never wraps (R104). -/
theorem toInt_multipleOf32 (n : IntT f) : (multipleOf32 n).toInt = 32 * (n.toInt / 32) := by
  have hmem := toInt_mem n
  rw [multipleOf32, BitVec.toInt_sub, toInt_tableIndex]
  cases f <;> simp only [Fmt.w, intMin, intMax] at * <;> rw [Int.bmod_eq_of_le (by omega) (by omega)] <;> omega

/-- Settles O34: `N2` and `M` are the remainder and the quotient of the floored division of `N` by 32. -/
theorem quotientSplit : Obligations.QuotientSplit := by
  unfold Obligations.QuotientSplit
  intro f n
  obtain ⟨hlo, hhi⟩ := toInt_mem n
  have hfloor : ⌊(n.toInt : ℚ) / 32⌋ = n.toInt / 32 := Rat.floor_intCast_div_natCast n.toInt 32
  have hrange : ((2 ^ (f.w - 1) : Nat) : Int) = 32 * 2 ^ (f.w - 6) := by cases f <;> rfl
  rw [intMin, hrange] at hlo
  rw [intMax, hrange] at hhi
  rw [toInt_tableIndex, toInt_multipleOf32, toInt_exponentQuotient, hfloor]
  refine ⟨?_, ?_, ?_, dvd_mul_right .., rfl, ?_, rfl, ?_, ?_⟩ <;> omega

/-! ### The two paths and the trailing remainder -/

/-- The path test said of the integer (R108). -/
theorem isBig_iff {n : IntT f} : isBig n = true ↔ 512 ≤ n.toInt ∨ n.toInt ≤ -512 := by
  rw [isBig, Bool.or_eq_true, decide_eq_true_eq, decide_eq_true_eq]
  rfl

/-- The two paths of the leading remainder (R106 to R108). -/
theorem r1_rangeReducer (rom : Rom f) (x : Bits f) :
    (rangeReducer rom x).r1 =
      if isBig (rangeReducer rom x).n then
        fma (fneg (i2f (tableIndex (rangeReducer rom x).n))) rom.l1
          (fma (fneg (i2f (multipleOf32 (rangeReducer rom x).n))) rom.l1 x)
      else fma (fneg (rangeReducer rom x).nf) rom.l1 x := rfl

/-- A finite quotient is an integer, which the conversion keeps unless it saturates (R102, R103). -/
theorem toInt_n_of_finite {rom : Rom f} {x : Bits f} (hfin : finite (rangeReducer rom x).nf = true)
    (h : |valRat (rangeReducer rom x).nf| < 2 ^ (f.w - 1)) :
    ((rangeReducer rom x).n.toInt : ℚ) = valRat (rangeReducer rom x).nf := by
  obtain ⟨k, hk⟩ : ∃ k : Int, valRat (rangeReducer rom x).nf = k := ⟨_, (valRat_rint (finite_of_finite_rint hfin)).2⟩
  rw [hk] at h ⊢
  have hlt : |k| < 2 ^ (f.w - 1) := by exact_mod_cast h
  obtain ⟨hlo, hhi⟩ := abs_lt.mp hlt
  have hself : (BitVec.ofInt f.w k).toInt = k :=
    toInt_ofInt_of_mem (by rw [intMin]; push_cast; exact hlo.le) (by rw [intMax]; push_cast; omega)
  have hn : (rangeReducer rom x).n = BitVec.ofInt f.w k := f2i_of_valRat_eq hfin (by rw [hk, hself])
  rw [hn, hself]

/-- The trailing remainder has the sign opposite to `N` (R109). -/
theorem sign_r2 {rom : Rom f} {x : Bits f} (hl2 : finitePositive rom.l2 = true) (hn : (rangeReducer rom x).n.toInt ≠ 0) :
    sign (rangeReducer rom x).r2 = decide (0 < (rangeReducer rom x).n.toInt) := by
  have hnf : sign (rangeReducer rom x).nf = decide ((rangeReducer rom x).n.toInt < 0) := sign_of_f2i_ne_zero hn
  have hr2 : sign (rangeReducer rom x).r2 = sign (fneg (rangeReducer rom x).nf) :=
    sign_fmul_of_finitePositive ((fnan_fneg _).trans (fnan_of_f2i_ne_zero hn)) hl2
  rw [hr2, sign_fneg, hnf, ← decide_not, decide_eq_decide]
  omega

/-- The trailing remainder is one rounding of `-Nf · L2`, with the sign of `Nf` flipped on a zero (R109). -/
theorem r2_eq_roundNE {rom : Rom f} {x : Bits f} (hl2 : finitePositive rom.l2 = true)
    (hfin : finite (rangeReducer rom x).nf = true) {m t : Int}
    (h : (m : ℚ) * 2 ^ t = -(valRat (rangeReducer rom x).nf * valRat rom.l2)) :
    (rangeReducer rom x).r2 = roundNE f m t (!sign (rangeReducer rom x).nf) := by
  have hprod : (m : ℚ) * 2 ^ t = valRat (fneg (rangeReducer rom x).nf) * valRat rom.l2 := by
    rw [h, valRat_fneg, neg_mul]
  have hr2 : (rangeReducer rom x).r2 = fmul (fneg (rangeReducer rom x).nf) rom.l2 := rfl
  rw [hr2, fmul_eq_roundNE (by simpa using hfin) (finitePositive_iff.mp hl2).1 hprod, sign_fneg,
    sign_of_finitePositive hl2, Bool.xor_false]

/-- Settles O40: the path is the test on `N` (`isBig_iff`), and `R2` the product of R109 (`sign_r2`, `r2_eq_roundNE`). -/
theorem reductionPathAndRemainders : Obligations.ReductionPathAndRemainders := by
  unfold Obligations.ReductionPathAndRemainders
  refine ⟨fun f rom x => ⟨toInt_n_of_finite, fun hlo hhi => ?_, fun hn => ?_, sign_r2,
    fun hl2 hfin m t => r2_eq_roundNE hl2 hfin⟩, fun f => by cases f <;> decide +kernel, by decide +kernel,
    by decide +kernel, by decide +kernel⟩
  · have hsmall : isBig (rangeReducer rom x).n = false := by
      rw [← Bool.not_eq_true, isBig_iff]
      omega
    exact ⟨hsmall, by rw [r1_rangeReducer, hsmall]; rfl⟩
  · have hbig := isBig_iff.mpr hn
    exact ⟨hbig, by rw [r1_rangeReducer, hbig]; rfl⟩

/-! ### The quotient of zero -/

/-- A quotient of zero passes the argument through (R106, R109). -/
theorem passesThrough_of_fzero_nf {rom : Rom f} {x : Bits f} (hinvL : finitePositive rom.invL = true)
    (hl1 : finitePositive rom.l1 = true) (hl2 : finitePositive rom.l2 = true) (hx : finite x = true)
    (hnf : fzero (rangeReducer rom x).nf = true) : PassesThrough rom x := by
  have hfin := finite_of_fzero hnf
  have hval := fzero_iff_valRat.mp hnf
  have hsign : sign (rangeReducer rom x).nf = sign x :=
    (sign_rint (finite_of_finite_rint hfin)).trans (sign_fmul_of_finitePositive (fnan_of_finite hx) hinvL)
  have hn : (rangeReducer rom x).n = 0 := f2i_of_valRat_eq hfin (by rw [hval]; cases f <;> rfl)
  have hparts : exponentQuotient (0 : IntT f) = 0 ∧ tableIndex (0 : IntT f) = 0 ∧ isBig (0 : IntT f) = false := by
    cases f <;> decide
  rw [← hn] at hparts
  obtain ⟨hm, hn2, hbig⟩ := hparts
  refine ⟨⟨hnf, hsign⟩, ⟨hn, hm.trans hn, hn2.trans hn⟩, hbig, ?_, ?_⟩
  · rw [r1_rangeReducer, hbig, if_neg Bool.false_ne_true]
    refine fma_of_product_zero (by simpa using hfin) (finitePositive_iff.mp hl1).1 hx (by simp [hval]) ?_
    rw [sign_fneg, hsign, sign_of_finitePositive hl1, Bool.xor_false]
  · rw [r2_eq_roundNE hl2 hfin (m := 0) (t := 0) (by simp [hval]), roundNE_zero]
    cases sign (rangeReducer rom x).nf <;> rfl

/-- A small argument passes through where `INV_L` is at most 64 (R111). -/
theorem passesThrough_of_small {rom : Rom f} {x : Bits f} (hinvL : finitePositive rom.invL = true)
    (hl1 : finitePositive rom.l1 = true) (hl2 : finitePositive rom.l2 = true) (hle : valRat rom.invL ≤ 64)
    (hx : finite x = true) (hsmall : |valRat x| < 2 ^ (-8 : Int)) : PassesThrough rom x := by
  obtain ⟨hfin, hpos⟩ := finitePositive_iff.mp hinvL
  rw [← valRat_pos_iff] at hpos
  refine passesThrough_of_fzero_nf hinvL hl1 hl2 hx (fzero_rint_fmul hx hfin ?_)
  calc |valRat x * valRat rom.invL| = |valRat x| * valRat rom.invL := by rw [abs_mul, abs_of_pos hpos]
    _ ≤ 2 ^ (-8 : Int) * 64 := by gcongr
    _ = 1 / 4 := by norm_num

/-- The reduction constants of the reference ROM are positive, and its `INV_L` at most 64 (R24). -/
theorem reference_reduction_constants (f : Fmt) :
    finitePositive (referenceRom f).invL = true ∧ finitePositive (referenceRom f).l1 = true ∧
      finitePositive (referenceRom f).l2 = true ∧ valRat (referenceRom f).invL ≤ 64 := by
  cases f <;> decide +kernel

/-- Settles O39: a quotient of zero passes the argument through (`passesThrough_of_fzero_nf`), and everything below `2^emin` or
the reference `THRESHOLD_2` is small enough for one. -/
theorem zeroQuotientPassesThrough : Obligations.ZeroQuotientPassesThrough := by
  unfold Obligations.ZeroQuotientPassesThrough
  refine ⟨fun f rom x => passesThrough_of_fzero_nf, fun f rom x hinvL hle hl1 hl2 hexp => ?_, fun f x hx hlt => ?_⟩
  · refine passesThrough_of_small hinvL hl1 hl2 hle (finite_of_expField_zero hexp) ?_
    calc |valRat x| < 2 ^ f.emin := abs_valRat_lt_of_expField_zero hexp
      _ ≤ 2 ^ (-8 : Int) := zpow_le_zpow_right₀ one_le_two (by cases f <;> decide)
  · obtain ⟨hinvL, hl1, hl2, hle⟩ := reference_reduction_constants f
    refine passesThrough_of_small hinvL hl1 hl2 hle hx ?_
    calc |valRat x| < valRat (referenceRom f).threshold2 := by
          rw [valRat_eq_val, valRat_eq_val, abs_mul, abs_of_pos (zpow_pos (two_pos : (0 : ℚ) < 2) _)]
          gcongr
          exact_mod_cast hlt
      _ = 2 ^ (-((f.p : Int) + 1)) := valRat_reference_threshold2 f
      _ ≤ 2 ^ (-8 : Int) := zpow_le_zpow_right₀ one_le_two (by cases f <;> decide)

/-! ### The reference products -/

/-- The reference `L1` without its trailing zeros: 15 significant bits in binary32 and 33 in binary64 (R24, R112). -/
def referenceL1Sig : Fmt → Nat
  | .binary32 => 0x58B9
  | .binary64 => 0x162E42FEF

/-- The exponent of the last of those bits. -/
def referenceL1Exp : Fmt → Int
  | .binary32 => -20
  | .binary64 => -38

/-- The value of the reference `L1`. -/
theorem valRat_reference_l1 (f : Fmt) : valRat (referenceRom f).l1 = referenceL1Sig f * 2 ^ referenceL1Exp f := by
  cases f <;> decide +kernel

/-- An integer `j · 2^e` times the reference `L1` is exact where `j` times the significand of `L1` fits the format. -/
theorem fmul_i2f_reference_l1_exact {k : IntT f} {j : Int} {e : Nat} (hk : k.toInt = j * 2 ^ e) (he : e ≤ 5)
    (hint : k.toInt.natAbs < 2 ^ f.p) (hj : j.natAbs * referenceL1Sig f < 2 ^ f.p) :
    valRat (fmul (i2f k) (referenceRom f).l1) = valRat (i2f k) * valRat (referenceRom f).l1 ∧
      finite (fmul (i2f k) (referenceRom f).l1) = true := by
  obtain ⟨hfin, hval⟩ : finite (i2f k) = true ∧ valRat (i2f k) = k.toInt := roundNE_int_exact false hint
  have hl1 := (finitePositive_iff.mp (reference_reduction_constants f).2.1).1
  have hprod : ((j * referenceL1Sig f : Int) : ℚ) * 2 ^ ((e : Int) + referenceL1Exp f) =
      valRat (i2f k) * valRat (referenceRom f).l1 := by
    rw [hval, valRat_reference_l1, hk, zpow_add₀ two_ne_zero, zpow_natCast]
    push_cast
    ring
  have hsig : (j * referenceL1Sig f).natAbs < 2 ^ f.p := by rwa [Int.natAbs_mul, Int.natAbs_natCast]
  have hexp : f.unit ≤ referenceL1Exp f ∧ referenceL1Exp f ≤ -5 := by cases f <;> decide
  have hlt : |((j * referenceL1Sig f : Int) : ℚ) * 2 ^ ((e : Int) + referenceL1Exp f)| < 2 ^ ((f.bias : Int) + 1) := by
    rw [abs_mul, abs_of_pos (zpow_pos (two_pos : (0 : ℚ) < 2) _)]
    calc |((j * referenceL1Sig f : Int) : ℚ)| * 2 ^ ((e : Int) + referenceL1Exp f)
        ≤ |((j * referenceL1Sig f : Int) : ℚ)| :=
          mul_le_of_le_one_right (abs_nonneg _) (zpow_le_one_of_nonpos₀ one_le_two (by omega))
      _ < 2 ^ f.p := natAbs_lt_two_pow_p_iff.mp hsig
      _ ≤ 2 ^ ((f.bias : Int) + 1) := two_pow_p_le f
  rw [fmul_eq_roundNE hfin hl1 hprod, ← hprod]
  exact (roundNE_exact _ hsig (by omega) hlt).symm

/-- Settles O60: `N1` is 32 times an integer of at most 8 (binary32) or 11 (binary64) bits, `N2` has 5 bits and `N` below 512
has 9; each leaves room for the bits of `L1`. -/
theorem referenceReductionProductsExact : Obligations.ReferenceReductionProductsExact := by
  unfold Obligations.ReferenceReductionProductsExact
  intro f n hn
  rw [Int.abs_eq_natAbs] at hn ⊢
  have hmul := toInt_multipleOf32 n
  have hidx := toInt_tableIndex n
  refine ⟨fmul_i2f_reference_l1_exact (j := n.toInt / 32) (e := 5) (by omega) le_rfl ?_ ?_,
    fmul_i2f_reference_l1_exact (j := n.toInt % 32) (e := 0) (by omega) (by omega) ?_ ?_, fun hsmall =>
    fmul_i2f_reference_l1_exact (j := n.toInt) (e := 0) (by omega) (by omega) ?_ ?_⟩
  all_goals cases f <;> simp only [Fmt.p, referenceL1Sig] at * <;> omega

end Sys2Proof.Machine
end

section
/-! PROOFS. The polynomial stage (spec/42_polynomial_eval_horner.md R120 to R125): the order of operands in its primitives, and
its value on a zero residual. -/

namespace Sys2Proof

/-- Each format has a coefficient `A1` (R23). -/
theorem Fmt.na_pos (f : Fmt) : 0 < f.na := by cases f <;> decide

end Sys2Proof

namespace Sys2Proof.Machine

variable {f : Fmt}

/-! ### The order of operands -/

/-- Two infinities of one sign are one pattern (R71). -/
theorem eq_of_finf_of_sign_eq {a b : Bits f} (ha : finf a = true) (hb : finf b = true) (hs : sign a = sign b) : a = b := by
  rw [eq_infinity_of_finf ha, eq_infinity_of_finf hb, hs]

/-- The rounded sum is commutative (R76): an infinite operand is the sum wherever it stands, and two of one sign are equal. -/
theorem fadd_comm (a b : Bits f) : fadd a b = fadd b a := by
  rw [fadd, fadd, Bool.or_comm (fnan a), Int.add_comm (val a), Bool.and_comm (sign a)]
  cases ha : finf a <;> cases hb : finf b
  case true.true =>
    by_cases hs : sign a = sign b
    · rw [eq_of_finf_of_sign_eq ha hb hs]
    · simp [hs, Ne.symm hs]
  all_goals rfl

/-- The rounded product is commutative (R77): each test and the exact product are symmetric. -/
theorem fmul_comm (a b : Bits f) : fmul a b = fmul b a := by
  rw [fmul, fmul, Bool.or_comm (fnan a), Bool.or_comm (finf a), Bool.or_comm (fzero a), Bool.xor_comm (sign a),
    Int.mul_comm (val a)]

/-- The product inside the fused operation is commutative (R78), as in `fmul_comm`. -/
theorem fma_mul_comm (a b c : Bits f) : fma a b c = fma b a c := by
  rw [fma, fma, Bool.or_comm (fnan a), Bool.or_comm (finf a), Bool.or_comm (fzero a), Bool.xor_comm (sign a),
    Int.mul_comm (val a)]

/-- Settles O49: the three operations are commutative, one lemma each. -/
theorem operandOrderCannotBeSeen : Obligations.OperandOrderCannotBeSeen := fun _ a b c =>
  ⟨fadd_comm a b, fmul_comm a b, fma_mul_comm a b c⟩

/-! ### Zeros through the primitives -/

/-- An exact zero is rounded to a zero (R74). -/
theorem fzero_roundNE_zero (f : Fmt) (t : Int) (zs : Bool) : fzero (roundNE f 0 t zs) = true :=
  fzero_iff_valRat.mpr (roundNE_zero_spec f t zs).2.2

/-- The sum of two zeros is `-0` only where both are (R76). -/
theorem fadd_of_fzero {a b : Bits f} (ha : fzero a = true) (hb : fzero b = true) :
    fadd a b = roundNE f 0 0 (sign a && sign b) := by
  refine fadd_of_finite (finite_of_fzero ha) (finite_of_fzero hb) ?_
  rw [fzero_iff_valRat.mp ha, fzero_iff_valRat.mp hb, Int.cast_zero, zero_mul, add_zero]

/-- The sum of two zeros of which one is `+0` is `+0` (R76). -/
theorem fadd_eq_pzero {a b : Bits f} (ha : fzero a = true) (hb : fzero b = true) (hs : (sign a && sign b) = false) :
    fadd a b = f.pzero := by
  rw [fadd_of_fzero ha hb, hs, roundNE_zero]
  rfl

/-- A zero times a finite value is a zero (R77). -/
theorem fzero_fmul {a b : Bits f} (ha : fzero a = true) (hb : finite b = true) : fzero (fmul a b) = true := by
  rw [fmul_eq_roundNE (n := 0) (t := 0) (finite_of_fzero ha) hb
    (by rw [fzero_iff_valRat.mp ha, Int.cast_zero, zero_mul, zero_mul])]
  exact fzero_roundNE_zero f 0 _

/-- Where the exact product is zero, the fused operation rounds its addend; only the sign of a zero can change (R78). -/
theorem fma_eq_roundNE_addend {a b c : Bits f} (ha : finite a = true) (hb : finite b = true) (hc : finite c = true)
    (h : valRat a * valRat b = 0) : ∃ zs, fma a b c = roundNE f (val c) f.unit zs := by
  have hsum : (val c : ℚ) * 2 ^ f.unit = valRat a * valRat b + valRat c := by rw [h, zero_add, valRat_eq_val]
  by_cases hz : val c = 0
  · have hunits : fusedUnits a b c = 0 := by
      rw [← mul_two_zpow_eq_zero_iff (t := 2 * f.unit), fusedUnits_mul, ← hsum, hz, Int.cast_zero, zero_mul]
    rw [fma_of_finite ha hb hc, if_pos hunits, hz]
    exact ⟨_, (roundNE_zero f 0 _).trans (roundNE_zero f f.unit _).symm⟩
  · exact ⟨false, fma_eq_roundNE ha hb hc hz hsum⟩

/-- Where the exact product is zero, the fused operation keeps the value of its addend (R78). -/
theorem fma_of_product_zero_spec {a b c : Bits f} (ha : finite a = true) (hb : finite b = true) (hc : finite c = true)
    (h : valRat a * valRat b = 0) : finite (fma a b c) = true ∧ valRat (fma a b c) = valRat c := by
  obtain ⟨zs, hround⟩ := fma_eq_roundNE_addend ha hb hc h
  rw [hround, valRat_roundNE_zeroSign f _ _ zs (sign c), roundNE_of_valRat_eq hc (valRat_eq_val c).symm,
    finite_roundNE_iff, ← valRat_eq_val]
  exact ⟨abs_valRat_lt_overflowBound hc, rfl⟩

/-- A zero product and a zero addend make a zero (R78). -/
theorem fzero_fma {a b c : Bits f} (ha : fzero a = true) (hb : fzero b = true) (hc : fzero c = true) :
    fzero (fma a b c) = true := by
  obtain ⟨-, hval⟩ := fma_of_product_zero_spec (finite_of_fzero ha) (finite_of_fzero hb) (finite_of_fzero hc)
    (by rw [fzero_iff_valRat.mp ha, zero_mul])
  rw [fzero_iff_valRat, hval, fzero_iff_valRat.mp hc]

/-! ### The polynomial of a zero residual -/

/-- At a zero argument every Horner step keeps its coefficient, so the Horner value is `A1` (R122, R123). -/
theorem horner_of_fzero_spec {rom : Rom f} (hcoeff : ∀ c ∈ rom.a.toList, finite c = true) {r : Bits f} (hr : fzero r = true) :
    finite (horner rom r) = true ∧ valRat (horner rom r) = valRat (rom.a[0]'f.na_pos) := by
  have hfin : ∀ (i : Nat) (hi : i < f.na), finite rom.a[i] = true := fun i hi =>
    hcoeff _ (Vector.mem_toList_iff.mpr (Vector.getElem_mem hi))
  have hstep : ∀ {q : Bits f} (i : Nat) (hi : i < f.na), finite q = true →
      finite (fma q r rom.a[i]) = true ∧ valRat (fma q r rom.a[i]) = valRat rom.a[i] := fun i hi hq =>
    fma_of_product_zero_spec hq (finite_of_fzero hr) (hfin i hi) (by rw [fzero_iff_valRat.mp hr, mul_zero])
  cases f
  case binary32 => exact hstep 0 _ (hfin 1 _)
  case binary64 => exact hstep 0 _ (hstep 1 _ (hstep 2 _ (hstep 3 _ (hfin 4 _)).1).1).1

/-- With a positive `A1` the Horner value at a zero argument is positive. -/
theorem finitePositive_horner_of_fzero {rom : Rom f} (hcoeff : ∀ c ∈ rom.a.toList, finitePositive c = true) {r : Bits f}
    (hr : fzero r = true) : finitePositive (horner rom r) = true := by
  obtain ⟨hfin, hval⟩ := horner_of_fzero_spec (fun c hc => (finitePositive_iff.mp (hcoeff c hc)).1) hr
  have hpos := hcoeff _ (Vector.mem_toList_iff.mpr (Vector.getElem_mem f.na_pos))
  rw [finitePositive_iff, ← valRat_pos_iff, hval, valRat_pos_iff]
  exact ⟨hfin, (finitePositive_iff.mp hpos).2⟩

/-- On a zero residual the summed argument `R` and the polynomial `Q` are zeros (R121, R124). -/
theorem fzero_r_q_polynomialEval {rom : Rom f} (hcoeff : ∀ c ∈ rom.a.toList, finite c = true) {r1 r2 : Bits f}
    (h1 : fzero r1 = true) (h2 : fzero r2 = true) :
    fzero (polynomialEval rom r1 r2).r = true ∧ fzero (polynomialEval rom r1 r2).q = true := by
  have hr : fzero (fadd r1 r2) = true := fadd_of_fzero h1 h2 ▸ fzero_roundNE_zero f 0 _
  exact ⟨hr, fzero_fmul hr (horner_of_fzero_spec hcoeff hr).1⟩

/-- On a zero residual with positive coefficients `Q` has the sign of `R` (R124). -/
theorem sign_q_polynomialEval {rom : Rom f} (hcoeff : ∀ c ∈ rom.a.toList, finitePositive c = true) {r1 r2 : Bits f}
    (hr : fzero (polynomialEval rom r1 r2).r = true) :
    sign (polynomialEval rom r1 r2).q = sign (polynomialEval rom r1 r2).r :=
  sign_fmul_of_finitePositive (fnan_of_finite (finite_of_fzero hr)) (finitePositive_horner_of_fzero hcoeff hr)

/-- Settles O41: `R` and `Q` are zeros, so the fused step is one too. With `R1 = +0` the last sum is `+0`; with positive
coefficients `Q` has the sign of `R`, so the fused step is `+0` already. -/
theorem zeroResidualGivesZeroPolynomial : Obligations.ZeroResidualGivesZeroPolynomial := by
  unfold Obligations.ZeroResidualGivesZeroPolynomial
  intro f rom
  obtain ⟨hzero, hsign⟩ : fzero f.pzero = true ∧ sign f.pzero = false := by cases f <;> decide
  constructor
  · intro hcoeff r2 h2
    obtain ⟨hr, hq⟩ := fzero_r_q_polynomialEval hcoeff hzero h2
    exact fadd_eq_pzero hzero (fzero_fma hr hq h2) (by rw [hsign, Bool.false_and])
  · intro hcoeff r1 r2 h1 h2
    obtain ⟨hr, hq⟩ := fzero_r_q_polynomialEval (fun c hc => (finitePositive_iff.mp (hcoeff c hc)).1) h1 h2
    have hfused : fma (polynomialEval rom r1 r2).r (polynomialEval rom r1 r2).q r2 = f.pzero := by
      rw [fma_of_zero (finite_of_fzero hr) (finite_of_fzero hq) (finite_of_fzero h2)
        (by rw [fzero_iff_valRat.mp hr, fzero_iff_valRat.mp h2, zero_mul, add_zero]), if_neg]
      exact fun ⟨_, hne, _⟩ => hne (sign_q_polynomialEval hcoeff hr).symm
    exact (congrArg (fadd r1) hfused).trans (fadd_eq_pzero h1 hzero (by rw [hsign, Bool.and_false]))

end Sys2Proof.Machine
end

section
/-! PROOFS. The reference tables (spec/43_table_lookup_2power_n32.md R139, R140): the real bound on `2^(k/32)` is a pair of strict
inequalities between 32nd powers of rational numbers, so the two tables are settled by evaluation, entry by entry. -/

namespace Sys2Proof.Machine

/-! ### The tables as rational numbers -/

/-- The value of the reference `S_lead[k]`. -/
def referenceLead (f : Fmt) (k : Fin 32) : ℚ := valRat (referenceRom f).sLead[k]

/-- The value of the reference `S_trail[k]`. -/
def referenceTrail (f : Fmt) (k : Fin 32) : ℚ := valRat (referenceRom f).sTrail[k]

/-- `z`, the significand bits cut off each reference lead (R139). -/
def referenceCut : Fmt → Int
  | .binary32 => 7
  | .binary64 => 6

/-- The bound of R140 on the distance of an entry's sum from `2^(k/32)`. -/
def referenceError (f : Fmt) : ℚ := 2 ^ (-2 * (f.p : Int) + referenceCut f + 1)

/-! ### Roots -/

/-- `2^(k/32)` is the 32nd root of `2^k`. -/
theorem two_rpow_div_pow (k : Nat) : ((2 : ℝ) ^ ((k : ℝ) / 32)) ^ 32 = 2 ^ k := by
  rw [← Real.rpow_mul_natCast two_pos.le, Nat.cast_ofNat, div_mul_cancel₀ _ (by norm_num), Real.rpow_natCast]

/-- A bracket of `2^k` between 32nd powers of rational numbers brackets `2^(k/32)`. -/
theorem abs_sub_two_rpow_lt {s δ : ℚ} {k : Nat} (hs : 0 ≤ s + δ) (hlo : (s - δ) ^ 32 < 2 ^ k) (hhi : 2 ^ k < (s + δ) ^ 32) :
    |(s : ℝ) - (2 : ℝ) ^ ((k : ℝ) / 32)| < δ := by
  have hroot := two_rpow_div_pow k
  have hpos : (0 : ℝ) ≤ (2 : ℝ) ^ ((k : ℝ) / 32) := by positivity
  have hbelow : (s : ℝ) - δ < (2 : ℝ) ^ ((k : ℝ) / 32) :=
    lt_of_pow_lt_pow_left₀ 32 hpos (by rw [hroot]; exact_mod_cast hlo)
  have habove : (2 : ℝ) ^ ((k : ℝ) / 32) < (s : ℝ) + δ :=
    lt_of_pow_lt_pow_left₀ 32 (by exact_mod_cast hs) (by rw [hroot]; exact_mod_cast hhi)
  exact abs_sub_lt_iff.mpr ⟨by linarith, by linarith⟩

/-! ### The entries, by evaluation -/

/-- Entry 0 is the pair `ONE`, `PZERO`. -/
theorem reference_entry_zero (f : Fmt) :
    (referenceRom f).sLead[(0 : Fin 32)] = f.one ∧ (referenceRom f).sTrail[(0 : Fin 32)] = f.pzero := by
  cases f <;> decide +kernel

/-- Every reference lead is in `[1, 2)`. -/
theorem referenceLead_range (f : Fmt) (k : Fin 32) : 1 ≤ referenceLead f k ∧ referenceLead f k < 2 := by
  revert k
  cases f <;> decide +kernel

/-- Every reference trail is non-negative and below the last place its lead keeps. -/
theorem referenceTrail_range (f : Fmt) (k : Fin 32) :
    0 ≤ referenceTrail f k ∧ referenceTrail f k < 2 ^ (1 - (f.p : Int) + referenceCut f) := by
  revert k
  cases f <;> decide +kernel

/-- The sum of a reference entry is within the bound of R140 of `2^(k/32)`, read through 32nd powers. -/
theorem reference_sum_bracket (f : Fmt) (k : Fin 32) :
    (referenceLead f k + referenceTrail f k - referenceError f) ^ 32 < 2 ^ k.val ∧
      2 ^ k.val < (referenceLead f k + referenceTrail f k + referenceError f) ^ 32 := by
  revert k
  cases f <;> decide +kernel

/-- The sums of the reference entries increase strictly: each is below the next. -/
theorem reference_sum_strictMono (f : Fmt) : StrictMono fun k => referenceLead f k + referenceTrail f k := by
  rw [Fin.strictMono_iff_lt_succ (n := 31)]
  cases f <;> decide +kernel

/-- Every reference entry's sum is close to `2^(k/32)`. -/
theorem reference_sum_close (f : Fmt) (k : Fin 32) :
    |((referenceLead f k + referenceTrail f k : ℚ) : ℝ) - (2 : ℝ) ^ ((k.val : ℝ) / 32)| < (referenceError f : ℝ) := by
  obtain ⟨hlo, hhi⟩ := reference_sum_bracket f k
  have herr : 0 < referenceError f := zpow_pos two_pos _
  obtain ⟨hlead, -⟩ := referenceLead_range f k
  obtain ⟨htrail, -⟩ := referenceTrail_range f k
  exact abs_sub_two_rpow_lt (by linarith) hlo hhi

/-- Settles O58: the rational facts of the entries, cast to real numbers. -/
theorem referenceTableProperties : Obligations.ReferenceTableProperties := by
  unfold Obligations.ReferenceTableProperties
  intro f
  obtain ⟨hone, hzero⟩ := reference_entry_zero f
  refine ⟨hone, hzero, fun k => ?_, fun k => ?_, fun j k hjk => ?_, fun k => ?_⟩
  · obtain ⟨hge, hlt⟩ := referenceTrail_range f k
    rw [← Rat.cast_lt (K := ℝ), Rat.cast_zpow, Rat.cast_ofNat] at hlt
    exact ⟨Rat.cast_nonneg.mpr hge, hlt⟩
  · obtain ⟨hge, hlt⟩ := referenceLead_range f k
    rw [← Rat.cast_le (K := ℝ), Rat.cast_one] at hge
    rw [← Rat.cast_lt (K := ℝ), Rat.cast_ofNat] at hlt
    exact ⟨hge, hlt⟩
  · have hlt := Rat.cast_lt (K := ℝ) |>.mpr (reference_sum_strictMono f hjk)
    rw [Rat.cast_add, Rat.cast_add] at hlt
    exact hlt
  · have hclose := reference_sum_close f k
    rw [referenceError, Rat.cast_add, Rat.cast_zpow, Rat.cast_ofNat] at hclose
    exact hclose

end Sys2Proof.Machine
end

section
/-! PROOFS. The reconstructor (spec/44_lead_trail_compensated_mult.md R150 to R156): the biased exponent, the power of two made
from bits, the exact scaling, and the compensated product of a zero polynomial value. -/

namespace Sys2Proof

/-- Halfway above the largest finite value is far above it: a last place of the top binade is at least 4 (R9, R26). -/
theorem Fmt.two_lt_two_zpow_bias_sub_p (f : Fmt) : (2 : ℚ) < 2 ^ ((f.bias : Int) - f.p) := by
  have h : (1 : Int) < (f.bias : Int) - f.p := by cases f <;> decide
  simpa using (zpow_lt_zpow_iff_right₀ (one_lt_two (α := ℚ))).mpr h

end Sys2Proof

namespace Sys2Proof.Machine

variable {f : Fmt}

/-! ### The biased exponent -/

/-- The biased exponent of a quotient by 32 does not wrap (R152). -/
theorem toInt_biasedExponent (n : IntT f) :
    (biasedExponent (exponentQuotient n)).toInt = (exponentQuotient n).toInt + (f.bias : Int) := by
  obtain ⟨hlo, hhi⟩ := toInt_mem n
  have hbias : (BitVec.ofNat f.w f.bias).toInt = (f.bias : Int) := by cases f <;> rfl
  rw [biasedExponent, BitVec.toInt_add, hbias, toInt_exponentQuotient]
  cases f <;> simp only [Fmt.w, Fmt.bias, intMin, intMax] at * <;> exact Int.bmod_eq_of_le (by omega) (by omega)

/-- The doubling test said of the integer (R153). -/
theorem needsDoubling_iff {b : IntT f} : needsDoubling b = true ↔ (f.expAllOnes : Int) ≤ b.toInt := by
  rw [needsDoubling, decide_eq_true_eq]

/-- The encoded exponent is held at the largest one of a finite pattern (R153). -/
theorem toInt_encodedExponent (b : IntT f) : (encodedExponent b).toInt = min b.toInt ((f.expAllOnes : Int) - 1) := by
  have htop : (BitVec.ofNat f.w (f.expAllOnes - 1)).toInt = (f.expAllOnes : Int) - 1 := by cases f <;> rfl
  rw [encodedExponent, select]
  split
  next h =>
    have := needsDoubling_iff.mp h
    rw [htop]
    omega
  next h =>
    have := mt needsDoubling_iff.mpr h
    omega

/-- Settles O35: the sum does not wrap (`toInt_biasedExponent`), and the rest is read off the integer. -/
theorem biasedExponentInRange : Obligations.BiasedExponentInRange := by
  unfold Obligations.BiasedExponentInRange
  intro f n
  have hb := toInt_biasedExponent n
  have hones : (f.expAllOnes : Int) = 2 * f.bias + 1 := by simp [Fmt.expAllOnes]
  refine ⟨hb, ?_, by rw [toInt_encodedExponent, hb]⟩
  rw [needsDoubling_iff, hb]
  omega

/-! ### The power of two made from bits -/

/-- The normal arm: the exponent field and nothing else (R154). -/
theorem pow2Bits_of_pos {e : IntT f} (h : 1 ≤ e.toInt) :
    pow2Bits e = BitVec.ofNat f.w (e.toInt.toNat * 2 ^ f.shift) := by
  have hnat : e.toInt.toNat = e.toNat :=
    BitVec.toNat_toInt_of_msb e (by rw [BitVec.msb_eq_toInt, decide_eq_false_iff_not]; omega)
  apply BitVec.eq_of_toNat_eq
  simp only [pow2Bits, select, decide_eq_true h, if_true, shiftLeft, hnat, BitVec.toNat_shiftLeft, Nat.shiftLeft_eq,
    BitVec.toNat_ofNat]

/-- The subnormal arm: one fraction bit, moved right by `-e` until it leaves the word (R154). -/
theorem pow2Bits_of_nonpos {e : IntT f} (h : e.toInt ≤ 0) :
    pow2Bits e = BitVec.ofNat f.w (2 ^ (f.shift - 1) / 2 ^ min (-e.toInt).toNat (f.w - 1)) := by
  have hhalf : (shiftLeft (1 : Bits f) (f.shift - 1)).toNat = 2 ^ (f.shift - 1) := by cases f <;> rfl
  have hlt : 2 ^ (f.shift - 1) / 2 ^ min (-e.toInt).toNat (f.w - 1) < 2 ^ f.w :=
    (Nat.div_le_self ..).trans_lt (hhalf ▸ BitVec.isLt _)
  have harm : ¬ 1 ≤ e.toInt := by omega
  apply BitVec.eq_of_toNat_eq
  simp only [pow2Bits, select, harm, decide_false, Bool.false_eq_true, if_false, shiftRight, BitVec.toNat_ushiftRight,
    hhalf, Nat.shiftRight_eq_div_pow, BitVec.toNat_ofNat, Nat.mod_eq_of_lt hlt]

/-- The fields of the normal arm (R154). -/
theorem fields_pow2Bits_of_pos {e : IntT f} (h : 1 ≤ e.toInt) (hhi : e.toInt ≤ (f.expAllOnes : Int) - 1) :
    sign (pow2Bits e) = false ∧ expField (pow2Bits e) = e.toInt.toNat ∧ fracField (pow2Bits e) = 0 := by
  have hones := f.expAllOnes_eq
  rw [pow2Bits_of_pos h, ← Nat.add_zero (_ * _)]
  exact fields_ofNat f (by omega) (Nat.two_pow_pos _)

/-- The fields of the subnormal arm (R154). -/
theorem fields_pow2Bits_of_nonpos {e : IntT f} (h : e.toInt ≤ 0) :
    sign (pow2Bits e) = false ∧ expField (pow2Bits e) = 0 ∧
      fracField (pow2Bits e) = 2 ^ (f.shift - 1) / 2 ^ min (-e.toInt).toNat (f.w - 1) := by
  have hlt : 2 ^ (f.shift - 1) / 2 ^ min (-e.toInt).toNat (f.w - 1) < 2 ^ f.shift :=
    (Nat.div_le_self ..).trans_lt (Nat.pow_lt_pow_right one_lt_two (Nat.sub_one_lt f.shift_pos.ne'))
  have hfields := fields_ofNat f (Nat.two_pow_pos _) hlt
  rwa [Nat.zero_mul, Nat.zero_add, ← pow2Bits_of_nonpos h] at hfields

/-- The pattern is positive and finite for every encoded exponent (R154). -/
theorem finite_pow2Bits {e : IntT f} (hhi : e.toInt ≤ (f.expAllOnes : Int) - 1) :
    sign (pow2Bits e) = false ∧ finite (pow2Bits e) = true := by
  rcases le_or_gt 1 e.toInt with h | h
  · obtain ⟨hs, hexp, -⟩ := fields_pow2Bits_of_pos h hhi
    exact ⟨hs, finite_iff_expField_lt.mpr (by omega)⟩
  · obtain ⟨hs, hexp, -⟩ := fields_pow2Bits_of_nonpos (Int.lt_add_one_iff.mp h)
    exact ⟨hs, finite_of_expField_zero hexp⟩

/-- The normal arm is the power of two (R154). -/
theorem valRat_pow2Bits_of_pos {e : IntT f} (h : 1 ≤ e.toInt) (hhi : e.toInt ≤ (f.expAllOnes : Int) - 1) :
    valRat (pow2Bits e) = (2 : ℚ) ^ (e.toInt - (f.bias : Int)) := by
  obtain ⟨hs, hexp, hfrac⟩ := fields_pow2Bits_of_pos h hhi
  rw [valRat_of_normal (by omega), hs, hexp, hfrac, Int.toNat_of_nonneg (by omega)]
  simp

/-- The subnormal arm is the power of two while its bit lies in the fraction (R154). -/
theorem valRat_pow2Bits_of_nonpos {e : IntT f} (h : e.toInt ≤ 0) (hlo : -((f.shift : Int) - 1) ≤ e.toInt) :
    valRat (pow2Bits e) = (2 : ℚ) ^ (e.toInt - (f.bias : Int)) := by
  obtain ⟨hs, hexp, hfrac⟩ := fields_pow2Bits_of_nonpos h
  have hclamp : min (-e.toInt).toNat (f.w - 1) = (-e.toInt).toNat := by
    cases f <;> simp only [Fmt.w, Fmt.shift] at * <;> omega
  have hfrac' : (fracField (pow2Bits e) : ℚ) = 2 ^ ((f.shift : Int) - 1 + e.toInt) := by
    rw [hfrac, hclamp, Nat.pow_div (by omega) two_pos, Nat.cast_pow, ← zpow_natCast, Nat.cast_ofNat]
    congr 1
    omega
  rw [valRat_of_expField_zero hexp, hs, hfrac', ← zpow_natCast, if_neg Bool.false_ne_true, one_mul,
    ← zpow_sub₀ two_ne_zero, ← zpow_add₀ two_ne_zero]
  congr 1
  unfold Fmt.emin
  ring

/-- Below the smallest subnormal the bit is shifted out (R154). -/
theorem pow2Bits_of_lt {e : IntT f} (h : e.toInt < -((f.shift : Int) - 1)) : pow2Bits e = f.pzero := by
  have hpos := f.shift_pos
  obtain ⟨hs, hexp, hfrac⟩ := fields_pow2Bits_of_nonpos (f := f) (e := e) (by omega)
  have hout : f.shift - 1 < min (-e.toInt).toNat (f.w - 1) := by
    cases f <;> simp only [Fmt.w, Fmt.shift] at * <;> omega
  rw [Nat.div_eq_of_lt (Nat.pow_lt_pow_right one_lt_two hout)] at hfrac
  rw [eq_zero_pattern hexp hfrac, hs]
  rfl

/-- Settles O36: the two arms of the pattern, by their fields. -/
theorem pow2BitsIsPowerOfTwo : Obligations.Pow2BitsIsPowerOfTwo := by
  unfold Obligations.Pow2BitsIsPowerOfTwo
  intro f e hhi
  obtain ⟨hs, hfin⟩ := finite_pow2Bits hhi
  refine ⟨hs, hfin, fun h => (fields_pow2Bits_of_pos h hhi).2, fun hlo => ?_, pow2Bits_of_lt⟩
  rcases le_or_gt 1 e.toInt with h | h
  · exact valRat_pow2Bits_of_pos h hhi
  · exact valRat_pow2Bits_of_nonpos (Int.lt_add_one_iff.mp h) hlo

/-! ### The scaling -/

/-- A power of two times a subnormal or a zero is exact where the product is in the normal range (R155): only a scale above 1
carries it there, and that keeps its last place one the format has. -/
theorem fmul_powerOfTwo_subnormal_exact {a b : Bits f} {s : Int} (ha : finite a = true) (hva : valRat a = 2 ^ s)
    (hEb : expField b = 0) (hlo : (2 : ℚ) ^ f.emin ≤ |valRat a * valRat b|)
    (hhi : |valRat a * valRat b| < (2 : ℚ) ^ ((f.bias : Int) + 1)) :
    finite (fmul a b) = true ∧ valRat (fmul a b) = valRat a * valRat b := by
  have hs : 0 ≤ s := by
    by_contra hneg
    have hscale : |valRat a| ≤ 1 := by
      rw [hva, abs_of_pos (zpow_pos two_pos s)]
      exact zpow_le_one_of_nonpos₀ one_le_two (by omega)
    rw [abs_mul] at hlo
    exact hlo.not_gt ((mul_le_of_le_one_left (abs_nonneg _) hscale).trans_lt (abs_valRat_lt_of_expField_zero hEb))
  have hval : (val b).natAbs < 2 ^ f.p := by
    have hlt := magnitude_lt b
    have hp := f.two_pow_p
    rw [hEb, Nat.add_zero] at hlt
    rw [natAbs_val]
    omega
  have hprod : (val b : ℚ) * 2 ^ (f.unit + s) = valRat a * valRat b := by
    rw [hva, valRat_eq_val b, zpow_add₀ two_ne_zero]
    ring
  rw [fmul_eq_roundNE ha (finite_of_expField_zero hEb) hprod, ← hprod]
  exact roundNE_exact _ hval (by omega) (hprod ▸ hhi)

/-- Settles O37: a normal `p2` keeps its significand (`fmul_powerOfTwo_exact`), a subnormal one its fraction. -/
theorem scalingIsExactInNormalRange : Obligations.ScalingIsExactInNormalRange := by
  unfold Obligations.ScalingIsExactInNormalRange
  intro f e p2 h hhi hp2 hlo hup
  obtain ⟨-, hfin⟩ := finite_pow2Bits hhi
  obtain ⟨-, hexp, hfrac⟩ := fields_pow2Bits_of_pos h hhi
  rcases Nat.eq_zero_or_pos (expField p2) with hsub | hnormal
  · exact fmul_powerOfTwo_subnormal_exact hfin (valRat_pow2Bits_of_pos h hhi) hsub hlo hup
  · exact fmul_powerOfTwo_exact hfin hp2 hfrac (by omega) hnormal hlo hup

/-! ### The compensated product of a zero polynomial value -/

/-- The magnitude of a finite pattern is at most that of the largest one (R71). -/
theorem magnitude_le_of_finite {b : Bits f} (h : finite b = true) :
    magnitude b ≤ (2 ^ f.p - 1) * 2 ^ (2 * f.bias - 1) := by
  have hF := fracField_lt b
  have hE := finite_iff_expField_lt.mp h
  have hp := f.two_pow_p
  unfold Fmt.expAllOnes at hE
  calc magnitude b ≤ (2 ^ f.shift + fracField b) * 2 ^ (expField b - 1) := by
        unfold magnitude
        split
        · exact (Nat.le_add_left ..).trans (Nat.le_mul_of_pos_right _ (Nat.two_pow_pos _))
        · exact le_rfl
    _ ≤ (2 ^ f.p - 1) * 2 ^ (2 * f.bias - 1) :=
        Nat.mul_le_mul (by omega) (Nat.pow_le_pow_right two_pos (by omega))

/-- The last place of the top binade, in units of the smallest subnormal (R71). -/
theorem two_pow_top_mul_unit (f : Fmt) :
    ((2 ^ (2 * f.bias - 1) : Nat) : ℚ) * 2 ^ f.unit = 2 * 2 ^ ((f.bias : Int) - f.p) := by
  have hbias : 1 ≤ 2 * f.bias := by cases f <;> decide
  rw [Nat.cast_pow, Nat.cast_ofNat, ← zpow_natCast, ← zpow_add₀ two_ne_zero, ← zpow_one_add₀ two_ne_zero]
  congr 1
  rw [Fmt.unit, Fmt.emin, f.p_eq, Nat.cast_sub hbias]
  push_cast
  ring

/-- Overflow begins half a last place of the top binade below its end (R74). -/
theorem overflowBound_eq (f : Fmt) : overflowBound f = (2 * 2 ^ f.p - 1) * 2 ^ ((f.bias : Int) - f.p) := by
  rw [overflowBound, zpow_sub₀ two_ne_zero (f.bias : Int), zpow_neg, zpow_natCast (2 : ℚ) f.p]
  field_simp

/-- Every finite value lies at least half a last place of the top binade below the bound where overflow begins (R74). -/
theorem abs_valRat_add_le_overflowBound {b : Bits f} (h : finite b = true) :
    |valRat b| + 2 ^ ((f.bias : Int) - f.p) ≤ overflowBound f := by
  have hmag : (magnitude b : ℚ) ≤ (2 ^ f.p - 1) * (2 ^ (2 * f.bias - 1) : Nat) := by
    have hle := (Nat.cast_le (α := ℚ)).mpr (magnitude_le_of_finite h)
    rwa [Nat.cast_mul, Nat.cast_sub Nat.one_le_two_pow, Nat.cast_pow, Nat.cast_ofNat, Nat.cast_one] at hle
  have hscaled := mul_le_mul_of_nonneg_right hmag (zpow_nonneg (two_pos.le : (0 : ℚ) ≤ 2) f.unit)
  rw [mul_assoc, two_pow_top_mul_unit] at hscaled
  rw [abs_valRat, overflowBound_eq]
  linarith

/-- Adding a value in `[1, 2)` to a finite one does not overflow (R76). -/
theorem finite_fadd_of_lt_two {a b : Bits f} (ha : finite a = true) (hb : finite b = true) (hlo : 1 ≤ valRat a)
    (hhi : valRat a < 2) : finite (fadd a b) = true := by
  rw [fadd_of_finite ha hb (valRat_add_eq a b), finite_roundNE_iff, valRat_add_eq]
  have htri := abs_add_le (valRat a) (valRat b)
  have habs : |valRat a| = valRat a := abs_of_pos (one_pos.trans_le hlo)
  linarith [abs_valRat_add_le_overflowBound hb, f.two_lt_two_zpow_bias_sub_p]

/-- A positive operand hides the sign of a zero: the sum depends on the value of the other only (R76). -/
theorem fadd_congr_right {a b c : Bits f} (ha : finite a = true) (hs : sign a = false) (hb : finite b = true)
    (hc : finite c = true) (h : valRat b = valRat c) : fadd a b = fadd a c := by
  rw [fadd_of_finite ha hb (valRat_add_eq a b), fadd_of_finite ha hc ((valRat_add_eq a b).trans (by rw [h])), hs,
    Bool.false_and, Bool.false_and]

/-- Settles O42: the summed entry is finite, so its product with a zero is a zero and the fused step keeps the value of the
trail. -/
theorem zeroPolynomialGivesSummedEntry : Obligations.ZeroPolynomialGivesSummedEntry := by
  unfold Obligations.ZeroPolynomialGivesSummedEntry
  intro f rom m n2 p entry hsl hlo hhi hst hp
  have hs : sign entry.sl = false := by
    rw [sign_of_valRat_ne_zero (one_pos.trans_le hlo).ne', decide_eq_false (one_pos.trans_le hlo).not_gt]
  have hsum : finite entry.s = true := finite_fadd_of_lt_two hsl hst hlo hhi
  obtain ⟨hfin, hval⟩ := fma_of_product_zero_spec hsum (finite_of_fzero hp) hst
    (by rw [fzero_iff_valRat.mp hp, mul_zero])
  exact fadd_congr_right hsl hs hfin hst hval

end Sys2Proof.Machine
end

section
/-! PROOFS. The classifier and blender (spec/45_special_value_classifier_blender.md R170 to R180): the masks of each class
of input, the override each lets through, and the linear value of a small input. -/

namespace Sys2Proof.Machine

open Sys2Proof.Safety

variable {f : Fmt}

/-! ### Absolute value and negation -/

/-- `fabs` clears the sign and keeps the other fields (R80). -/
@[simp] theorem sign_fabs (b : Bits f) : sign (fabs b) = false := by
  have h : (~~~f.signBit).msb = false := by cases f <;> decide
  rw [sign, fabs, BitVec.msb_and, h, Bool.and_false]

@[simp] theorem expField_fabs (b : Bits f) : expField (fabs b) = expField b := by
  have h : (~~~f.signBit).extractLsb' f.shift f.ebits = BitVec.allOnes f.ebits := by cases f <;> decide
  rw [expField, fabs, BitVec.extractLsb'_and, h, BitVec.and_allOnes, expField]

@[simp] theorem fracField_fabs (b : Bits f) : fracField (fabs b) = fracField b := by
  have h : (~~~f.signBit).extractLsb' 0 f.shift = BitVec.allOnes f.shift := by cases f <;> decide
  rw [fracField, fabs, BitVec.extractLsb'_and, h, BitVec.and_allOnes, fracField]

@[simp] theorem fnan_fabs (b : Bits f) : fnan (fabs b) = fnan b := by simp [fnan]

@[simp] theorem finite_fabs (b : Bits f) : finite (fabs b) = finite b := by simp [finite]

/-- The absolute value, in the unit of `val` (R80). -/
@[simp] theorem val_fabs (b : Bits f) : val (fabs b) = |val b| := by
  have hmag : magnitude (fabs b) = magnitude b := by simp [magnitude]
  rw [val_eq (fabs b), sign_fabs, hmag, Int.abs_eq_natAbs, natAbs_val]
  rfl

/-- The negated value, in the unit of `val` (R79). -/
@[simp] theorem val_fneg (b : Bits f) : val (fneg b) = -val b := by
  rw [val_eq, val_eq, sign_fneg, magnitude_fneg]
  cases sign b <;> simp

/-- Both infinities have the absolute value `PINF` (R80). -/
theorem fabs_infinity (f : Fmt) : fabs f.pinf = f.pinf ∧ fabs f.ninf = f.pinf := by cases f <;> decide

/-- A pattern that is not a NaN is finite or one of the two infinities (R71). -/
theorem finite_or_infinity {b : Bits f} (h : fnan b = false) : finite b = true ∨ b = f.pinf ∨ b = f.ninf := by
  rcases class_cases b with ⟨hnan, -⟩ | ⟨-, hinf, -⟩ | ⟨-, -, hfin⟩
  · rw [h] at hnan; cases hnan
  · have heq := eq_infinity_of_finf hinf
    split at heq
    · exact .inr (.inr heq)
    · exact .inr (.inl heq)
  · exact .inl hfin

/-! ### The masks of each class -/

/-- The four masks, as the table of R178 lists them: NaN, +∞, zero, small. -/
def masks (rom : Rom f) (x : Bits f) : Bool × Bool × Bool × Bool :=
  (maskNan x, maskPinf rom x, maskZero rom x, maskSmall rom x)

/-- Finite values are compared by `val` (R84). -/
theorem flt_of_finite {a b : Bits f} (ha : finite a = true) (hb : finite b = true) :
    flt a b = decide (val a < val b) := by
  obtain ⟨-, -, hfin, -⟩ := comparisonsFollowValues f a b
  rw [Bool.eq_iff_iff, (hfin ha hb).1, decide_eq_true_iff, valRat_lt_valRat_iff]

/-- A NaN answers every comparison with false, so its own mask is the only one (R84, R174). -/
theorem masks_of_fnan (rom : Rom f) {x : Bits f} (hx : fnan x = true) : masks rom x = (true, false, false, false) := by
  have hcmp : ∀ b : Bits f, flt x b = false ∧ fgt x b = false ∧ feq x b = false :=
    fun b => (comparisonsFollowValues f x b).1 (.inl hx)
  have habs : flt (fabs x) rom.threshold2 = false :=
    ((comparisonsFollowValues f (fabs x) rom.threshold2).1 (.inl (by simpa using hx))).1
  simp [masks, maskNan, maskPinf, maskZero, maskSmall, hx, hcmp, habs]

/-- `PINF` is not below a finite value, nor a finite value below `NINF` (R84). -/
theorem flt_infinity_of_finite {b : Bits f} (hb : finite b = true) : flt f.pinf b = false ∧ flt b f.ninf = false := by
  obtain ⟨-, -, -, hinf, -⟩ := comparisonsFollowValues f b b
  obtain ⟨-, -, hp, hn, -⟩ := hinf hb
  exact ⟨hp, hn⟩

/-- The masks of `PINF`: it is not below a threshold (R171 to R173). -/
theorem masks_pinf {rom : Rom f} (h : ThresholdsOk rom) : masks rom f.pinf = (false, true, false, false) := by
  obtain ⟨hT1, hT2, -, -⟩ := thresholdsAdmissible_iff.mp h
  have hself : fnan f.pinf = false ∧ feq f.pinf f.pinf = true ∧ feq f.pinf f.ninf = false := by cases f <;> decide
  simp [masks, maskNan, maskPinf, maskZero, maskSmall, fabs_infinity, flt_infinity_of_finite, hself, hT1, hT2]

/-- The masks of `NINF`: no threshold is below it, nor its absolute value below a threshold (R171 to R173). -/
theorem masks_ninf {rom : Rom f} (h : ThresholdsOk rom) : masks rom f.ninf = (false, false, true, false) := by
  obtain ⟨hT1, hT2, -, -⟩ := thresholdsAdmissible_iff.mp h
  have hself : fnan f.ninf = false ∧ feq f.ninf f.ninf = true ∧ feq f.ninf f.pinf = false := by cases f <;> decide
  simp [masks, maskNan, maskPinf, maskZero, maskSmall, fgt, fabs_infinity, flt_infinity_of_finite, hself, hT1, hT2]

/-- The masks of a finite input are the comparisons of its value with the thresholds (R171 to R174). -/
theorem masks_of_finite {rom : Rom f} (h : ThresholdsOk rom) {x : Bits f} (hx : finite x = true) :
    masks rom x = (false, decide (val rom.threshold1 < val x), decide (val x < -val rom.threshold1),
      decide (|val x| < val rom.threshold2)) := by
  obtain ⟨hT1, hT2, -, -⟩ := thresholdsAdmissible_iff.mp h
  obtain ⟨-, -, -, hinf, -⟩ := comparisonsFollowValues f x x
  obtain ⟨-, -, -, -, hp, hn, -⟩ := hinf hx
  simp [masks, maskNan, maskPinf, maskZero, maskSmall, fgt, fnan_of_finite hx, flt_of_finite, hx, hT1, hT2, hp, hn]

/-- Above `THRESHOLD_1` (R178). -/
theorem masks_of_above {rom : Rom f} (h : ThresholdsOk rom) {x : Bits f} (hx : finite x = true)
    (hval : val rom.threshold1 < val x) : masks rom x = (false, true, false, false) := by
  obtain ⟨-, -, hpos, hlt⟩ := thresholdsAdmissible_iff.mp h
  have hlow : ¬val x < -val rom.threshold1 := by omega
  have hsmall : ¬|val x| < val rom.threshold2 := by rw [abs_lt]; omega
  rw [masks_of_finite h hx, decide_eq_true hval, decide_eq_false hlow, decide_eq_false hsmall]

/-- Below `-THRESHOLD_1` (R178). -/
theorem masks_of_below {rom : Rom f} (h : ThresholdsOk rom) {x : Bits f} (hx : finite x = true)
    (hval : val x < -val rom.threshold1) : masks rom x = (false, false, true, false) := by
  obtain ⟨-, -, hpos, hlt⟩ := thresholdsAdmissible_iff.mp h
  have hhigh : ¬val rom.threshold1 < val x := by omega
  have hsmall : ¬|val x| < val rom.threshold2 := by rw [abs_lt]; omega
  rw [masks_of_finite h hx, decide_eq_true hval, decide_eq_false hhigh, decide_eq_false hsmall]

/-- At most `THRESHOLD_1` in magnitude: the small mask alone decides (R178). -/
theorem masks_of_within {rom : Rom f} (h : ThresholdsOk rom) {x : Bits f} (hx : finite x = true)
    (hval : |val x| ≤ val rom.threshold1) :
    masks rom x = (false, false, false, decide (|val x| < val rom.threshold2)) := by
  obtain ⟨hlow, hhigh⟩ := abs_le.mp hval
  rw [masks_of_finite h hx, decide_eq_false hhigh.not_gt, decide_eq_false hlow.not_gt]

/-- Below `THRESHOLD_2` in magnitude, which is below `THRESHOLD_1` (R178). -/
theorem masks_of_small {rom : Rom f} (h : ThresholdsOk rom) {x : Bits f} (hx : finite x = true)
    (hval : |val x| < val rom.threshold2) : masks rom x = (false, false, false, true) := by
  obtain ⟨-, -, -, hlt⟩ := thresholdsAdmissible_iff.mp h
  rw [masks_of_within h hx (hval.trans hlt).le, decide_eq_true hval]

/-- At most one mask is true: each class of input has its own (R177). -/
theorem masks_cases {rom : Rom f} (h : ThresholdsOk rom) (x : Bits f) :
    masks rom x = (true, false, false, false) ∨ masks rom x = (false, true, false, false) ∨
      masks rom x = (false, false, true, false) ∨ ∃ s, masks rom x = (false, false, false, s) := by
  cases hnan : fnan x
  case true => exact .inl (masks_of_fnan rom hnan)
  case false =>
    rcases finite_or_infinity hnan with hfin | rfl | rfl
    · rcases lt_or_ge (val rom.threshold1) (val x) with habove | hle
      · exact .inr (.inl (masks_of_above h hfin habove))
      rcases lt_or_ge (val x) (-val rom.threshold1) with hbelow | hge
      · exact .inr (.inr (.inl (masks_of_below h hfin hbelow)))
      · exact .inr (.inr (.inr ⟨_, masks_of_within h hfin (abs_le.mpr ⟨hge, hle⟩)⟩))
    · exact .inr (.inl (masks_pinf h))
    · exact .inr (.inr (.inl (masks_ninf h)))

/-- No two masks are true together (R177). -/
theorem masks_exclude_one_another {rom : Rom f} (h : ThresholdsOk rom) (x : Bits f) :
    ¬(maskNan x = true ∧ maskPinf rom x = true) ∧ ¬(maskNan x = true ∧ maskZero rom x = true) ∧
      ¬(maskNan x = true ∧ maskSmall rom x = true) ∧ ¬(maskPinf rom x = true ∧ maskZero rom x = true) ∧
      ¬(maskPinf rom x = true ∧ maskSmall rom x = true) ∧ ¬(maskZero rom x = true ∧ maskSmall rom x = true) := by
  rcases masks_cases h x with hm | hm | hm | ⟨s, hm⟩ <;> simp only [masks, Prod.mk.injEq] at hm <;> simp [hm]

/-! ### The blend -/

/-- The blend through the values of the masks (R170, R176). -/
theorem classifyBlend_of_masks {rom : Rom f} {x : Bits f} (r1 : Bits f) {n p z s : Bool} (h : masks rom x = (n, p, z, s)) :
    classifyBlend rom x r1 = select n x (select z f.pzero (select p f.pinf (select s (linear x) r1))) := by
  cases h
  rfl

/-- Settles O30: the NaN mask is the definition of a NaN, and it is the last override. -/
theorem nanForwardedBitForBit : Obligations.NanForwardedBitForBit := by
  unfold Obligations.NanForwardedBitForBit
  refine ⟨fun f x => (patternClassAndValue f x).1, fun f rom x hx => classifyBlend_of_masks _ (masks_of_fnan rom hx), ?_⟩
  decide

/-- Two overrides of which at most one applies can change places. -/
theorem select_comm {α : Type} {m n : Bool} (h : ¬(m = true ∧ n = true)) (a b y : α) :
    select n b (select m a y) = select m a (select n b y) := by
  cases m
  · rfl
  · cases n
    · rfl
    · exact absurd ⟨rfl, rfl⟩ h

/-- Settles O32: no two masks are true together, so any two overrides can change places and their list can be permuted. -/
theorem masksExcludeOneAnother : Obligations.MasksExcludeOneAnother := by
  unfold Obligations.MasksExcludeOneAnother
  intro f rom x r1 h
  obtain ⟨hnp, hnz, hns, hpz, hps, hzs⟩ := masks_exclude_one_another h x
  refine ⟨hnp, hnz, hns, hpz, hps, hzs, fun l hl => ?_⟩
  have hcomm : [(maskSmall rom x, linear x), (maskPinf rom x, f.pinf), (maskZero rom x, f.pzero)].Pairwise
      fun a b => ∀ y, select b.1 b.2 (select a.1 a.2 y) = select a.1 a.2 (select b.1 b.2 y) := by
    simp only [List.pairwise_cons, List.forall_mem_cons, List.not_mem_nil, false_implies, implies_true, List.Pairwise.nil,
      and_true]
    exact ⟨⟨fun y => (select_comm hps _ _ y).symm, fun y => (select_comm hzs _ _ y).symm⟩, select_comm hpz _ _⟩
  have hall := hcomm.forall_of_forall_of_flip (fun _ _ _ => rfl) (hcomm.imp fun hab y => (hab y).symm)
  have hfold := hl.foldl_eq' (f := fun y o => select o.1 o.2 y)
    (fun a ha b hb y => hall (hl.mem_iff.mp ha) (hl.mem_iff.mp hb) y) r1
  rw [hfold]
  rfl

/-! ### The linear value -/

/-- A pattern that neither orders below nor above a finite one that is not a zero is that one (R84). -/
theorem eq_of_not_flt {a b : Bits f} (ha : fnan a = false) (hb : finite b = true) (hne : valRat b ≠ 0)
    (hab : flt a b = false) (hba : flt b a = false) : a = b := by
  rw [not_flt_iff (fnan_of_finite hb) ha, finf_of_finite hb] at hab
  rw [not_flt_iff ha (fnan_of_finite hb), finf_of_finite hb] at hba
  have hval : valRat a = valRat b := by
    rw [valRat_inj]
    rcases hab with ⟨⟨⟩, -⟩ | ⟨hinf, hpos⟩ | ⟨-, hfin, hle⟩
    · rcases hba with ⟨-, hneg⟩ | ⟨⟨⟩, -⟩ | ⟨hfin, -, -⟩
      · rw [hpos] at hneg; cases hneg
      · rw [finf_of_finite hfin] at hinf; cases hinf
    · rcases hba with ⟨hinf, -⟩ | ⟨⟨⟩, -⟩ | ⟨-, -, hge⟩
      · rw [finf_of_finite hfin] at hinf; cases hinf
      · exact le_antisymm hge hle
  refine eq_of_valRat_eq ?_ hval
  rw [sign_of_valRat_ne_zero (hval ▸ hne), sign_of_valRat_ne_zero hne, hval]

/-- `RN_T` of a value between two that round to the same pattern, not a zero, is that pattern (R74). -/
theorem roundNE_eq_of_between {b : Bits f} (hb : finite b = true) (hne : valRat b ≠ 0) {lo n hi t : Int} {zs : Bool}
    (hlo : roundNE f lo t zs = b) (hhi : roundNE f hi t zs = b) (hln : lo ≤ n) (hnh : n ≤ hi) (zs' : Bool) :
    roundNE f n t zs' = b :=
  eq_of_not_flt (roundNE_spec f n t zs').1 hb hne (hlo ▸ not_flt_roundNE t zs zs' hln) (hhi ▸ not_flt_roundNE t zs' zs hnh)

/-- The reference `THRESHOLD_2` is the tie between `ONE` and its lower neighbour, and `ONE` is even: it rounds away on either
side (R24, R74). -/
theorem roundNE_one_reference_threshold2 (f : Fmt) :
    roundNE f (val f.one - val (referenceRom f).threshold2) f.unit false = f.one ∧
      roundNE f (val f.one + val (referenceRom f).threshold2) f.unit false = f.one := by
  cases f <;> decide +kernel

/-- The linear value of an input up to the reference `THRESHOLD_2` is 1 (R175). -/
theorem linear_eq_one {x : Bits f} (hx : finite x = true) (h : |val x| ≤ val (referenceRom f).threshold2) :
    linear x = f.one := by
  obtain ⟨hone, hpos⟩ : finite f.one = true ∧ 0 < val f.one := by cases f <;> decide +kernel
  obtain ⟨hlo, hhi⟩ := abs_le.mp h
  obtain ⟨hdown, hup⟩ := roundNE_one_reference_threshold2 f
  rw [linear, fadd_of_finite hone hx (valRat_add_eq f.one x)]
  exact roundNE_eq_of_between hone (valRat_pos_iff.mpr hpos).ne' hdown hup (by omega) (by omega) _

/-- Zeros and subnormals lie below the reference `THRESHOLD_2` (R24). -/
theorem abs_val_le_reference_threshold2 {x : Bits f} (h : expField x = 0) :
    |val x| ≤ val (referenceRom f).threshold2 := by
  have hscale : ((2 ^ f.shift : Nat) : Int) ≤ val (referenceRom f).threshold2 := by cases f <;> decide +kernel
  have hmag : magnitude x < 2 ^ f.shift := by simpa [h] using magnitude_lt x
  rw [Int.abs_eq_natAbs, natAbs_val]
  omega

/-! ### The output by class -/

/-- Settles O31: the masks of each class, and the override they let through. -/
theorem outputByClass : Obligations.OutputByClass := by
  unfold Obligations.OutputByClass
  intro f rom x r1 h
  have row : ∀ {n p z s : Bool}, masks rom x = (n, p, z, s) → masks rom x = (n, p, z, s) ∧
      classifyBlend rom x r1 = select n x (select z f.pzero (select p f.pinf (select s (linear x) r1))) :=
    fun hm => ⟨hm, classifyBlend_of_masks r1 hm⟩
  refine ⟨rfl, fun hx => row (masks_of_fnan rom hx), ?_, fun hx hv => row (masks_of_above h hx hv), ?_,
    fun hx hv => row (masks_of_below h hx hv), fun hx hv => ?_, fun hx hge hle => row ?_⟩
  · rintro rfl
    exact row (masks_pinf h)
  · rintro rfl
    exact row (masks_ninf h)
  · obtain ⟨hm, hy⟩ := row (masks_of_small h hx hv)
    exact ⟨hm, hy, fun hT => hy.trans (linear_eq_one hx (hT ▸ hv.le))⟩
  · rw [masks_of_within h hx hle, decide_eq_false hge.not_gt]

/-- Settles O33: an input of exponent field 0 and below `THRESHOLD_2` takes the linear value, which is 1. -/
theorem zeroAndSubnormalGiveOne : Obligations.ZeroAndSubnormalGiveOne := by
  unfold Obligations.ZeroAndSubnormalGiveOne
  intro f rom h
  obtain ⟨-, -, hpos, -⟩ := thresholdsAdmissible_iff.mp h
  have hsmall : ∀ x : Bits f, expField x = 0 → |val x| < val rom.threshold2 → expLane rom x = f.one := fun x he hv =>
    (classifyBlend_of_masks _ (masks_of_small h (finite_of_expField_zero he) hv)).trans
      (linear_eq_one (finite_of_expField_zero he) (abs_val_le_reference_threshold2 he))
  have hzero : (expField f.pzero = 0 ∧ val f.pzero = 0) ∧ expField f.signBit = 0 ∧ val f.signBit = 0 := by
    cases f <;> decide
  obtain ⟨⟨hep, hvp⟩, hes, hvs⟩ := hzero
  exact ⟨hsmall _ hep (by simpa [hvp] using hpos), hsmall _ hes (by simpa [hvs] using hpos), hsmall⟩

end Sys2Proof.Machine
end

section
/-! PROOFS. The five operations (spec/46_fp_exp_approx_kernel.md R190 to R197): every bit of a result, hence its lanes, its
zero bits and the operand bits it does not look at; then a wide operation from its narrow halves. -/

namespace Sys2Proof

/-- A lane is at least one bit wide. -/
theorem Fmt.w_pos (f : Fmt) : 0 < f.w := by cases f <;> decide

end Sys2Proof

namespace Sys2Proof.Machine

variable {f : Fmt}

/-! ### The result of an operation -/

/-- Each lane of the result is the lane function of the operand's lane (R190). -/
theorem lane_vexp (rom : Rom f) (vs : Vec) {i W : Nat} (hi : i < W) (hfit : f.w * W ≤ 512) :
    lane f i (vexp rom W vs) = expLane rom (lane f i vs) :=
  lane_mapLanes f (expLane rom) vs hi hfit

/-- Bit `k` of the result is bit `k mod w` of lane `k / w`, and there is none above the lanes. -/
theorem getLsbD_vexp (rom : Rom f) (vs : Vec) {W : Nat} (hfit : f.w * W ≤ 512) (k : Nat) :
    (vexp rom W vs).getLsbD k =
      (decide (k < f.w * W) && (expLane rom (lane f (k / f.w) vs)).getLsbD (k % f.w)) := by
  by_cases hk : k < f.w * W
  · rw [← lane_vexp rom vs (Nat.div_lt_of_lt_mul hk) hfit, lane_getLsbD, Nat.div_add_mod, decide_eq_true hk,
      decide_eq_true (Nat.mod_lt k f.w_pos), Bool.true_and, Bool.true_and]
  · rw [vexp, mapLanes_getLsbD_high _ _ _ _ _ (not_lt.mp hk), decide_eq_false hk, Bool.false_and]

/-- The bits above the lanes are zero in the result. -/
theorem extractLsb'_vexp_above (rom : Rom f) (vs : Vec) {W n : Nat} (hn : f.w * W ≤ n) (m : Nat) :
    (vexp rom W vs).extractLsb' n m = 0#m := by
  apply BitVec.eq_of_getLsbD_eq
  intro k _
  rw [BitVec.getLsbD_extractLsb', vexp, mapLanes_getLsbD_high _ _ _ _ _ (Nat.le_add_right_of_le hn)]
  simp

/-- The low `n` bits hold every lane that ends below bit `n`. -/
theorem lane_lowBits (vs : Vec) {i n : Nat} (h : f.w * (i + 1) ≤ n) :
    lane f i ((vs.extractLsb' 0 n).setWidth 512) = lane f i vs := by
  apply BitVec.eq_of_getLsbD_eq
  intro k hk
  have hkn : f.w * i + k < n := by rw [Nat.mul_succ] at h; omega
  simp only [lane_getLsbD, BitVec.getLsbD_setWidth, BitVec.getLsbD_extractLsb', hkn, Nat.zero_add, decide_true,
    Bool.true_and]
  rw [Bool.and_eq_right_iff_imp.mpr fun hbit => decide_eq_true (BitVec.lt_of_getLsbD hbit)]

/-- The bits above the lanes are ignored in the operand. -/
theorem vexp_lowBits (rom : Rom f) (vs : Vec) {W n : Nat} (hn : f.w * W ≤ n) :
    vexp rom W ((vs.extractLsb' 0 n).setWidth 512) = vexp rom W vs :=
  mapLanes_congr f (expLane rom) _ _ W fun _ hi => lane_lowBits vs (le_trans (Nat.mul_le_mul_left f.w hi) hn)

/-- Operands that differ only above the lanes get the same answer. -/
theorem answerVexp_of_lowBits {vs vs' : Vec} (s : State) {W n : Nat} (hn : f.w * W ≤ n)
    (h : vs'.extractLsb' 0 n = vs.extractLsb' 0 n) : answerVexp f W vs' s = answerVexp f W vs s := by
  rw [answerVexp, answerVexp, ← vexp_lowBits _ vs' hn, h, vexp_lowBits _ vs hn]

/-! ### Lanes and widths -/

/-- Settles O28: both lanes are the lane function of the one operand lane (`lane_vexp`). -/
theorem laneDependsOnlyOnItself : Obligations.LaneDependsOnlyOnItself := by
  unfold Obligations.LaneDependsOnlyOnItself
  intro f rom W W' i vs vs' hi hi' hfit hfit' hlane
  rw [lane_vexp rom vs hi hfit, lane_vexp rom vs' hi' hfit', hlane]

/-- Shifting the operand right by whole lanes renumbers its lanes. -/
theorem lane_ushiftRight (vs : Vec) (i A : Nat) : lane f i (vs >>> (f.w * A)) = lane f (A + i) vs := by
  apply BitVec.eq_of_getLsbD_eq
  intro k _
  rw [lane_getLsbD, lane_getLsbD, BitVec.getLsbD_ushiftRight, Nat.mul_add, Nat.add_assoc]

/-- An operation on `A + B` lanes is the one on the low `A` lanes beside the one on the high `B` (R197). -/
theorem vexp_add (rom : Rom f) (vs : Vec) {A B : Nat} (hfit : f.w * (A + B) ≤ 512) :
    vexp rom (A + B) vs = vexp rom A vs ||| (vexp rom B (vs >>> (f.w * A)) <<< (f.w * A)) := by
  have hsum : f.w * (A + B) = f.w * A + f.w * B := Nat.mul_add _ _ _
  apply BitVec.eq_of_getLsbD_eq
  intro k hk
  rw [BitVec.getLsbD_or, BitVec.getLsbD_shiftLeft, getLsbD_vexp rom vs hfit, getLsbD_vexp rom vs (by omega),
    getLsbD_vexp rom _ (by omega), lane_ushiftRight]
  by_cases hlow : k < f.w * A
  · simp [hlow, show k < f.w * (A + B) by omega]
  · obtain ⟨j, rfl⟩ := Nat.exists_eq_add_of_le (not_lt.mp hlow)
    rw [Nat.add_sub_cancel_left, Nat.mul_add_div f.w_pos, Nat.mul_add_mod]
    simp [hk, hsum]

/-- Settles O29: `vexp_add` at each of the three splits. -/
theorem crossWidthConsistency : Obligations.CrossWidthConsistency := by
  unfold Obligations.CrossWidthConsistency
  exact ⟨fun rom vs => vexp_add (A := 4) (B := 4) rom vs (by decide),
    fun rom vs => vexp_add (A := 8) (B := 8) rom vs (by decide),
    fun rom vs => vexp_add (A := 4) (B := 4) rom vs (by decide)⟩

/-! ### The five operations

Each meaning is `answerVexp` of its format and lane count, and that emits `vexp` of the operand: both by definition. The
operand of a worked example is closed, so its result is evaluated. -/

/-- The worked example of R191. -/
theorem vexp_worked_example_S4 {vs : Vec} (h : vs.extractLsb' 0 128 = 0x7FC00001FF8000003F80000000000000) :
    vexp referenceRom32 4 vs = 0x7FC0000100000000402DF8543F800000 := by
  rw [← vexp_lowBits referenceRom32 vs (n := 128) (by decide), h]
  decide +kernel

/-- The worked example of R192. -/
theorem vexp_worked_example_S8 {vs : Vec}
    (h : vs.extractLsb' 0 256 = 0xBF0000003F000000C2CE000042B166667FC00001FF8000003F80000000000000) :
    vexp referenceRom32 8 vs = 0x3F1B45983FD3094C000000007F7A37FC7FC0000100000000402DF8543F800000 := by
  rw [← vexp_lowBits referenceRom32 vs (n := 256) (by decide), h]
  decide +kernel

/-- The worked example of R194. -/
theorem vexp_worked_example_D4 {vs : Vec}
    (h : vs.extractLsb' 0 256 = 0xFFF00000000000007FF000000000000000000000000000003FF0000000000000) :
    vexp referenceRom64 4 vs = 0x00000000000000007FF00000000000003FF00000000000004005BF0A8B145769 := by
  rw [← vexp_lowBits referenceRom64 vs (n := 256) (by decide), h]
  decide +kernel

/-- Settles O6: the result is `VEXP(binary32, 4, vs)`, of which `lane_vexp`, `extractLsb'_vexp_above` and
`answerVexp_of_lowBits` say the clauses. -/
theorem vexpS4Completes : Obligations.VexpS4Completes := by
  unfold Obligations.VexpS4Completes
  exact fun vs s => ⟨rfl, vexp s.cfg.rom32 4 vs, rfl, fun _ hi => lane_vexp _ vs hi (by decide),
    extractLsb'_vexp_above _ vs (by decide) 384,
    fun _ h => congrArg Host.Outcome.next (answerVexp_of_lowBits (f := .binary32) s (by decide) h),
    fun hrom h => (congrArg (vexp · 4 vs) hrom).trans (vexp_worked_example_S4 h)⟩

/-- Settles O7: as O6, for `VEXP(binary32, 8, vs)`. -/
theorem vexpS8Completes : Obligations.VexpS8Completes := by
  unfold Obligations.VexpS8Completes
  exact fun vs s => ⟨rfl, vexp s.cfg.rom32 8 vs, rfl, fun _ hi => lane_vexp _ vs hi (by decide),
    extractLsb'_vexp_above _ vs (by decide) 256,
    fun _ h => congrArg Host.Outcome.next (answerVexp_of_lowBits (f := .binary32) s (by decide) h),
    fun hrom h => (congrArg (vexp · 8 vs) hrom).trans (vexp_worked_example_S8 h)⟩

/-- Settles O8: `VEXP(binary32, 16, vs)` fills the vector, so its lanes are all there is to say. -/
theorem vexpS16Completes : Obligations.VexpS16Completes := by
  unfold Obligations.VexpS16Completes
  refine fun vs s => ⟨rfl, vexp s.cfg.rom32 16 vs, rfl, fun _ hi => lane_vexp _ vs hi (by decide), ?_⟩
  rintro hrom rfl
  rw [hrom]
  decide +kernel

/-- Settles O9: as O6, for `VEXP(binary64, 4, vs)`. -/
theorem vexpD4Completes : Obligations.VexpD4Completes := by
  unfold Obligations.VexpD4Completes
  exact fun vs s => ⟨rfl, vexp s.cfg.rom64 4 vs, rfl, fun _ hi => lane_vexp _ vs hi (by decide),
    extractLsb'_vexp_above _ vs (by decide) 256,
    fun _ h => congrArg Host.Outcome.next (answerVexp_of_lowBits (f := .binary64) s (by decide) h),
    fun hrom h => (congrArg (vexp · 4 vs) hrom).trans (vexp_worked_example_D4 h)⟩

/-- Settles O10: as O8, for `VEXP(binary64, 8, vs)`. -/
theorem vexpD8Completes : Obligations.VexpD8Completes := by
  unfold Obligations.VexpD8Completes
  refine fun vs s => ⟨rfl, vexp s.cfg.rom64 8 vs, rfl, fun _ hi => lane_vexp _ vs hi (by decide), ?_⟩
  rintro hrom rfl
  rw [hrom]
  decide +kernel

end Sys2Proof.Machine
end

section
/-! PROOFS. The exception (spec/60_exceptions.md R210, R212) and the hazards (spec/70_reset_and_hazards.md R230 to R234): an
illegal command is precise and no step stops; a presented command waits while the queue is full; reset discards what is in
flight and nothing that comes after it. -/

namespace Sys2Proof.Machine

open Sys2Proof.Safety

/-! ### The exception -/

/-- The kernel's turn has a command at the head of the queue. -/
theorem queue_of_respond {s : State} {c : Command} (h : s.nextMove = .respond c) : s.q = c :: s.q.tail := by
  obtain ⟨-, -, hq⟩ := nextMove_respond_iff.mp h
  exact (List.cons_head?_tail hq).symm

/-- The kernel's turn stays its turn when another command stands in the place of the served one: only the length of the
queue is read (R35). -/
theorem nextMove_of_head_replaced {s : State} {c : Command} (h : s.nextMove = .respond c) (c' : Command) :
    ({ s with q := c' :: s.q.tail } : State).nextMove = .respond c' := by
  have hlen : (c' :: s.q.tail).length = s.q.length := by rw [queue_of_respond h]; rfl
  obtain ⟨hr, hfull, -⟩ := nextMove_respond_iff.mp h
  exact nextMove_respond_iff.mpr ⟨hr, fun hv => (hfull hv).trans hlen.ge, rfl⟩

/-- A step that serves an illegal word: the command leaves the queue and the `IllegalCommand` response is delivered (R212). -/
theorem step_of_respond_illegal {s : State} {c : Command} (h : s.nextMove = .respond c) (hill : legal c.op = false) :
    step s = .next (emit ⟨0, true⟩ (dequeue s)) := by
  rw [step_of_respond h, answer_of_illegal s.cfg hill]

/-- The fault reading stops where an illegal word is served (R212, log 4). -/
theorem faultReading_of_illegal {s : State} {c : Command} (h : s.nextMove = .respond c) (hill : legal c.op = false) :
    faultReading s = .fault (.illegalCommand c.op) := by
  simp [faultReading, h, hill]

/-- The fault reading is the machine's step where no illegal word is served. -/
theorem faultReading_of_legal {s : State} (h : ∀ c, s.nextMove = .respond c → legal c.op = true) :
    faultReading s = step s := by
  unfold faultReading
  cases hm : s.nextMove with
  | respond c => exact if_pos (h c hm)
  | _ => rfl

/-- Settles O12: the step is `step_of_respond_illegal`; another operand leaves the move a `respond`
(`nextMove_of_head_replaced`) and the response `⟨0, true⟩`. -/
theorem illegalCommandIsPrecise : Obligations.IllegalCommandIsPrecise := by
  unfold Obligations.IllegalCommandIsPrecise
  intro s c hm hill
  have hstep := step_of_respond_illegal hm hill
  refine ⟨hstep, fun vs' => ?_, faultReading_of_illegal hm hill⟩
  rw [hstep, step_of_respond_illegal (nextMove_of_head_replaced hm ⟨c.op, vs'⟩) hill]
  rfl

/-- Settles O19: `step_total` for the step, `exec_emits` for the instruction. -/
theorem noStepStops : Obligations.NoStepStops := by
  unfold Obligations.NoStepStops
  exact ⟨step_total, exec_emits⟩

/-! ### The fault reading on legal runs -/

/-- A step brings up no command: what is queued or still to be presented was so before, under reset too. -/
theorem commands_subset_of_step {s t : State} (h : step s = .next t) :
    t.q ++ presented t.host ⊆ s.q ++ presented s.host := by
  rcases step_cases_answer h with ⟨-, rfl⟩ | ⟨-, hv, -, rfl⟩ | ⟨c, rest, -, hq, rfl⟩ | ⟨-, -, -, rfl⟩
  · rw [resetStep_q, resetStep_host, List.nil_append, presented_host s]
    exact List.subset_append_of_subset_right _ (List.subset_append_right _ _)
  · simp [presented_host s, hv]
  · simp [presented_hostAfterTurn, hq]
  · simp [presented_hostAfterTurn]

/-- Every step keeps a run free of illegal words. -/
theorem allLegal_of_step {s t : State} (hs : allLegal s = true) (h : step s = .next t) : allLegal t = true :=
  List.all_eq_true.mpr fun c hc => List.all_eq_true.mp hs c (commands_subset_of_step h hc)

/-- On a run free of illegal words the fault reading is the machine's step. -/
theorem faultReading_of_allLegal {s : State} (hs : allLegal s = true) : faultReading s = step s := by
  refine faultReading_of_legal fun c hm => List.all_eq_true.mp hs c ?_
  rw [queue_of_respond hm]
  exact List.mem_cons_self

/-- On runs free of illegal words the machine under the fault reading ends as the machine does. -/
theorem run_faultCore_of_allLegal (n : Nat) {s : State} (hs : allLegal s = true) :
    (Host.Core.run faultCore n s : Host.Outcome State Fault Refusal) = Host.Core.run core n s := by
  induction n generalizing s with
  | zero => rfl
  | succ n ih =>
    obtain ⟨t, h⟩ := step_total s
    have hfault : faultReading s = .next t := (faultReading_of_allLegal hs).trans h
    exact (run_succ_of_step faultCore hfault n).trans
      ((ih (allLegal_of_step hs h)).trans (run_succ_of_step core h n).symm)

/-- Settles O27: `run_faultCore_of_allLegal` for the runs; at an illegal word one reading stops and the machine answers. -/
theorem faultReadingAgreesOnLegalRuns : Obligations.FaultReadingAgreesOnLegalRuns := by
  unfold Obligations.FaultReadingAgreesOnLegalRuns
  exact ⟨fun n s hs => run_faultCore_of_allLegal n hs,
    fun s c hm hill => ⟨faultReading_of_illegal hm hill, step_total s⟩⟩

/-! ### The queue full, and reset -/

/-- The step taken when neither agent can move (log 8). -/
theorem step_of_idle {s : State} (h : s.nextMove = .idle) : step s = .next (idleStep s) := by
  rw [step, h]

/-- The state with one more edge before the host's list, on which nothing is presented. -/
def withIdleEdge (s : State) : State := { s with host := PortIn.idle :: s.host }

/-- The kernel's turn on an edge with nothing presented leaves what its turn leaves while a presented command waits (R234). -/
theorem dequeue_withIdleEdge {s : State} (hv : s.portIn.cmdValid = true) : dequeue (withIdleEdge s) = dequeue s := by
  have hwait : s.hostAfterTurn = s.host := if_pos hv
  rw [dequeue, dequeue, hwait]
  rfl

/-- As `dequeue_withIdleEdge`, with nothing queued. -/
theorem idleStep_withIdleEdge {s : State} (hv : s.portIn.cmdValid = true) : idleStep (withIdleEdge s) = idleStep s := by
  have hwait : s.hostAfterTurn = s.host := if_pos hv
  rw [idleStep, idleStep, hwait]
  rfl

/-- Settles O15: with the queue full it is the kernel's turn whether a command is presented or not, and the edge with
nothing presented is the one that turn uses up. The queue is full and empty at once only where `QDEPTH` is 0. -/
theorem presentedWhileFullIsHeld : Obligations.PresentedWhileFullIsHeld := by
  unfold Obligations.PresentedWhileFullIsHeld
  intro s hr hv hfull
  have hwait : s.hostAfterTurn = s.host := if_pos hv
  refine ⟨by simp [State.cmdReady, hr, hfull], ?_⟩
  cases hhead : s.q.head? with
  | none =>
    have hq : s.q = [] := List.head?_eq_none_iff.mp hhead
    have hidle : s.nextMove = .idle := nextMove_idle_iff.mpr ⟨hr, fun _ => hfull, hq⟩
    have hidle' : (withIdleEdge s).nextMove = .idle := nextMove_idle_iff.mpr ⟨rfl, nofun, hq⟩
    have hstep' : step (withIdleEdge s) = .next (idleStep s) := by
      rw [step_of_idle hidle', idleStep_withIdleEdge hv]
    refine ⟨idleStep s, step_of_idle hidle, hwait, ?_, (step_of_idle hidle).trans hstep'.symm⟩
    rw [idleStep_q, hq, List.tail_nil]
  | some c =>
    have hserve : s.nextMove = .respond c := nextMove_respond_iff.mpr ⟨hr, fun _ => hfull, hhead⟩
    have hserve' : (withIdleEdge s).nextMove = .respond c := nextMove_respond_iff.mpr ⟨rfl, nofun, hhead⟩
    have hstep' : step (withIdleEdge s) = .next (emit (answer s.cfg c) (dequeue s)) := by
      rw [step_of_respond hserve', dequeue_withIdleEdge hv]
      rfl
    exact ⟨_, step_of_respond hserve, hwait, rfl, (step_of_respond hserve).trans hstep'.symm⟩

/-- Settles O16: the reset step is `step_of_reset`; an empty queue has room once reset is released. -/
theorem resetEmptiesTheQueue : Obligations.ResetEmptiesTheQueue := by
  unfold Obligations.ResetEmptiesTheQueue
  intro s hr
  refine ⟨by rw [State.cmdReady, hr, Bool.false_and], resetStep s, step_of_reset hr, rfl, rfl, fun hrelease hroom => ?_⟩
  rw [State.cmdReady, hrelease, Bool.true_and]
  exact decide_eq_true hroom

/-- Settles O17: after the reset step the run is reset-free and starts with an empty queue, so what it delivers is what
`responsesInOrderForEverySchedule` says of the commands presented after the reset. -/
theorem resetDiscardsCommandsInFlight : Obligations.ResetDiscardsCommandsInFlight := by
  unfold Obligations.ResetDiscardsCommandsInFlight
  intro s t n hr hreset hrun hd
  rw [run_succ_of_step core (step_of_reset hr)] at hrun
  obtain ⟨-, hdelivered⟩ := responsesInOrderForEverySchedule.2 n (resetStep s) t hreset hrun
  exact hdelivered hd

end Sys2Proof.Machine
end
